-- ==== Sys2Proof/Word.lean ====
section
/-! DEFINITION. The word types of CH64 (00_scope.md R2, section 5) and the value pair (R8, R15). -/

namespace Sys2Proof

/-- R2: every scalar, seed, digest, pair half and constant is an unsigned 64-bit integer, with
arithmetic modulo 2^64 (which is `BitVec`'s). -/
abbrev Word := BitVec 64

/-- R23: the buffer is a sequence of 8-bit bytes. -/
abbrev Byte := BitVec 8

/-- R39: a command is one 32-bit word. -/
abbrev CmdWord := BitVec 32

/-- R8, R15: an ordered pair of two separate 64-bit numbers; no carry passes between them. -/
structure Pair where
  first : Word
  second : Word
deriving DecidableEq, Repr

end Sys2Proof
end

