-- ==== Sys2Proof/Config.lean ====
section
/-! DEFINITION. What an implementation fixes, and the free values of the spec's unspecified values
(00_scope.md section 4; 93_implementation_defined.md part 1). -/

namespace Sys2Proof

/-- The free values: the `k`-th draw of an unspecified 64-bit value (U1 to U4). It has no body, so
nothing can be proved of any of its values; a statement that names one holds for every value.
DESIGN CHOICE, log entry 1. -/
opaque Config.free : Nat → Word

/-- R81, C5, U8: the two values of the parameter `TRUNC_RULE`. -/
inductive TruncRule where
  /-- `REM <- (LEN - 1) AND NOT 63`, the default. -/
  | ref
  /-- `REM <- LEN AND NOT 63`, the literal reading of the source. -/
  | literal
deriving DecidableEq, Repr

/-- U7: the open parameters of a platform. No rule depends on their values; every definition and
statement that needs one takes a `Platform` as an argument. -/
structure Config.Platform where
  /-- `N_INST` (R102): how many instances the system holds. -/
  nInst : Nat
  /-- `REG_MAP` (R18): the bus address of a register number. -/
  regMap : Nat → Nat
  /-- `MAX_LEN` (R24): the largest length the platform can back with real bytes. -/
  maxLen : Word

end Sys2Proof
end

