-- ==== Sys2Proof/Syntax.lean ====
section
/-! DEFINITION. The command set: one constructor per row of opcode_table.json (30_encoding.md R43). -/

namespace Sys2Proof

/-- The twelve commands, `BSWAP` and `FETCH` once per width, as the opcode table lists them.
Registers are implicit (R44); the one operand in the word of a row is `sh` of `ROTR`, held at the six
bits of its field (R42), so that a rotate by 64 or more cannot be written (D18). -/
inductive Instr where
  /-- `ROTR #sh`, R50 -/
  | rotr (sh : BitVec 6)
  /-- `BSWAP.B`, R52 -/
  | bswapB
  /-- `BSWAP.H`, R52 -/
  | bswapH
  /-- `BSWAP.W`, R52 -/
  | bswapW
  /-- `BSWAP.D`, R52 -/
  | bswapD
  /-- `FETCH.B`, R54 -/
  | fetchB
  /-- `FETCH.H`, R54 -/
  | fetchH
  /-- `FETCH.W`, R54 -/
  | fetchW
  /-- `FETCH.D`, R54 -/
  | fetchD
  /-- `SHMIX`, R56 -/
  | shmix
  /-- `H128`, R58 -/
  | h128
  /-- `HL16`, R60 -/
  | hl16
  /-- `HL16M`, R62 -/
  | hl16m
  /-- `WEAK32`, R64 -/
  | weak32
  /-- `WEAK32B`, R66 -/
  | weak32b
  /-- `HASH`, R68 -/
  | hash
  /-- `HASHS`, R87 -/
  | hashs
  /-- `HASHSS`, R88 -/
  | hashss
deriving DecidableEq, Repr

end Sys2Proof
end

