-- ==== Sys2Proof/Machine/State.lean ====
section
/-! DEFINITION. The state of one CH64 (10_state.md R9 to R22) with the host's side of it
(R18, R19, R110), the reasons a step can stop, and the state after reset (R22, R105). -/

namespace Sys2Proof.Machine

/-- R14: the values of `STATUS.STATE`. -/
inductive RunState where
  /-- 0: no command has run since reset -/
  | idle
  /-- 1: a command is running -/
  | busy
  /-- 2: the last command ended without fault -/
  | done
  /-- 3: a command ended in a fault -/
  | fault
deriving DecidableEq, Repr

/-- R91: the two faults of CH64. Both are next states of the model (R95). -/
inductive Cause where
  /-- code 1 -/
  | bufRange
  /-- code 2 -/
  | illegalCmd
deriving DecidableEq, Repr

/-- R17: where the sequencer is inside the command. `pSeed` carries the un-seeded digest that the seed
mix takes, a wire of R88 to which the spec gives no register (DESIGN CHOICE, log entry 5). -/
inductive Phase where
  | pIdle
  | pDecode
  | pShort
  | pPrime
  | pBlock
  | pFinal
  | pSeed (digest : Word)
deriving DecidableEq, Repr

/-- R10: the six operand registers. -/
structure OpFile where
  o0 : Word
  o1 : Word
  o2 : Word
  o3 : Word
  o4 : Word
  o5 : Word
deriving DecidableEq, Repr

/-- R16: the hidden working registers of the pipeline. -/
structure Hidden where
  x : Word
  y : Word
  z : Word
  v : Pair
  wp : Pair
  pos : Word
  rem : Word
deriving DecidableEq, Repr

/-- R18: the registers the host can reach, numbers 0 to 11. There is no other number (log entry 11). -/
inductive HostReg where
  | cmd
  | status
  | len
  | finfo
  | op (i : Fin 6)
  | res (i : Fin 2)
deriving DecidableEq, Repr

/-- R18: a register access of the host, of a whole register. -/
inductive Access where
  /-- read a register -/
  | read (r : HostReg)
  /-- write a register; a write to `CMD` starts a command (R13) -/
  | write (r : HostReg) (v : Word)
deriving DecidableEq, Repr

/-- R110: what the host may do (log entry 24). -/
inductive HostMove where
  /-- access a register (R18) -/
  | access (a : Access)
  /-- bind the buffer to these bytes, the first at offset 0 (R23) -/
  | bind (bytes : List Byte)
  /-- change one byte of the binding -/
  | poke (off : Word) (b : Byte)
  /-- release the buffer: no byte is bound -/
  | release
  /-- the reset event (R105) -/
  | reset
deriving DecidableEq, Repr

/-- Who moves next (DESIGN CHOICE, log entry 3). -/
inductive Turn where
  /-- the host makes a move -/
  | host (m : HostMove)
  /-- the sequencer runs: a command that has not begun runs whole, as R86 allows -/
  | command
  /-- the sequencer takes one phase, or one block step (R86) -/
  | phase
  /-- R48: the host waits until `STATE` is not `BUSY`; the sequencer moves, and the turn stays, while a
  command runs -/
  | await
deriving DecidableEq, Repr

/-- R23: the bytes the host has bound, offset and byte, offsets strictly rising. An offset that is not
listed has no byte (log entry 7). -/
abbrev Memory := List Host.Cell

structure State where
  /-- `OP[0]` to `OP[5]`, R10 -/
  ops : OpFile
  /-- `RES[0]`, R11 -/
  res0 : Word
  /-- `RES[1]`, R11 -/
  res1 : Word
  /-- `LEN`, R12 -/
  len : Word
  /-- `CMD`, R13 -/
  cmd : CmdWord
  /-- `STATUS`, R14: `STATE` in bits 1:0, `CAUSE` in bits 7:4 -/
  status : BitVec 32
  /-- `FINFO`, R21 -/
  finfo : Word
  /-- `X`, `Y`, `Z`, `V`, `Wp`, `POS`, `REM`, R16 -/
  hidden : Hidden
  /-- `PHASE`, R17 -/
  phase : Phase
  /-- the bound buffer, R23 -/
  buf : Memory
  /-- host accesses that wait for the running command to end, oldest first, R19 -/
  held : List Access
  /-- the model's own: the turns still to come (log entry 3) -/
  agenda : List Turn
  /-- the model's own: what host reads have returned, oldest first (log entry 15) -/
  replies : List (HostReg × Word)
  /-- the model's own: how many free values have been drawn (log entry 1) -/
  draws : Nat
deriving DecidableEq, Repr

/-- Why the machine stops where the spec gives no outcome. CH64's own faults, `BufRange` and
`IllegalCmd`, are not here: they are next states with `STATE = FAULT` (R95). -/
inductive Fault where
  /-- Raised by a buffer read that is in range of `LEN` at an offset the host has not backed with a
  byte (R24, U6: stuck or fault, never a byte value). Safe: the machine stops and no value is made up. -/
  | unbackedByte (off : Nat)
deriving DecidableEq, Repr

/-- Why the model has no meaning for a turn. -/
inductive Refusal where
  /-- Raised by `exec` for an instruction that has no meaning yet; safe. No arm raises it. -/
  | notModelled (mnemonic : String)
  /-- Raised by a host move that changes the buffer while a command runs, which R33 and R110 forbid the
  host and U5 has the model refuse. Unsafe in the sense of D33: a host that breaks the duty is not
  described (log entry 8). -/
  | bufferMoveWhileBusy
deriving DecidableEq, Repr

/-- Six unspecified operand registers, drawn from index `k` on (U1). -/
def OpFile.free (k : Nat) : OpFile where
  o0 := Config.free k
  o1 := Config.free (k + 1)
  o2 := Config.free (k + 2)
  o3 := Config.free (k + 3)
  o4 := Config.free (k + 4)
  o5 := Config.free (k + 5)

/-- Nine unspecified hidden words, drawn from index `k` on (U4). -/
def Hidden.free (k : Nat) : Hidden where
  x := Config.free k
  y := Config.free (k + 1)
  z := Config.free (k + 2)
  v := ⟨Config.free (k + 3), Config.free (k + 4)⟩
  wp := ⟨Config.free (k + 5), Config.free (k + 6)⟩
  pos := Config.free (k + 7)
  rem := Config.free (k + 8)

/-- R22: the machine right after reset, before the host has bound a buffer or made a move. The
registers R22 leaves unspecified hold the free values 0 to 16 (DESIGN CHOICE, log entry 2: U1 says any
value, and never to assume 0). -/
def State.reset : State where
  ops := OpFile.free 0
  res0 := Config.free 6
  res1 := Config.free 7
  len := 0
  cmd := 0
  status := 0
  finfo := 0
  hidden := Hidden.free 8
  phase := .pIdle
  buf := []
  held := []
  agenda := []
  replies := []
  draws := 17

end Sys2Proof.Machine
end

