-- ==== Sys2Proof/Machine/Flags.lean ====
section
/-! DEFINITION. The fields of `STATUS` (10_state.md R14). CH64 has no flags, no condition codes and no
predicate registers (R20): no operation records carry, overflow, zero or sign, so this file holds no
flag computation, only the one status word. -/

namespace Sys2Proof.Machine

/-- R14: the code of a value of `STATE`. -/
def stateCode : RunState → BitVec 32
  | .idle => 0
  | .busy => 1
  | .done => 2
  | .fault => 3

/-- R14: `STATE`, bits 1:0. -/
def statusState (w : BitVec 32) : RunState :=
  match (w.extractLsb' 0 2).toNat with
  | 0 => .idle
  | 1 => .busy
  | 2 => .done
  | _ => .fault

/-- R14: `CAUSE`, bits 7:4. -/
def statusCause (w : BitVec 32) : BitVec 4 := w.extractLsb' 4 4

/-- `STATUS.STATE <- r`, every other bit kept. -/
def setStatusState (r : RunState) (w : BitVec 32) : BitVec 32 := (w &&& 0xFFFFFFFC#32) ||| stateCode r

/-- `STATUS.CAUSE <- c`, every other bit kept. -/
def setStatusCause (c : BitVec 4) (w : BitVec 32) : BitVec 32 :=
  (w &&& 0xFFFFFF0F#32) ||| (c.setWidth 32 <<< 4)

/-- R14: what a read of `STATUS` returns; the reserved bits 3:2 and 31:8 read as 0
(log entry 22). -/
def statusRead (w : BitVec 32) : BitVec 32 := w &&& 0x000000F3#32

/-- R91: the code of a cause. -/
def causeCode : Cause → BitVec 4
  | .bufRange => 1
  | .illegalCmd => 2

/-- The current `STATUS.STATE`. -/
def runState (s : State) : RunState := statusState s.status

end Sys2Proof.Machine
end

