-- ==== Sys2Proof/Machine/Ops.lean ====
section
/-! DEFINITION. The named operations over the buffer and the registers: reading and binding bytes
(20_memory.md), ending a command (R11, R40, R67), entering a fault (R95) and the reset event, the one
way out of a fault (R97, R105). -/

namespace Sys2Proof.Machine

/-! ### The buffer -/

/-- Offsets are unsigned 64-bit numbers (R23). -/
def offsetLimit : Nat := 2 ^ 64

/-- R23: the byte at an offset, if the host has bound one there. -/
def byteAt : Memory → Nat → Option Byte
  | [], _ => none
  | (a, b) :: rest, off => if a = off then some b else byteAt rest off

/-- The host places one byte; the list stays in its canonical form. -/
def putByte (off : Nat) (b : Byte) : Memory → Memory
  | [] => [(off, b)]
  | (a, c) :: rest =>
    if off < a then (off, b) :: (a, c) :: rest
    else if off = a then (off, b) :: rest
    else (a, c) :: putByte off b rest

/-- The cells of a byte list that starts at offset `a`; there is no offset of 2^64 or more (R23;
DEDUCED, log entry 23). -/
def cellsFrom (a : Nat) : List Byte → Memory
  | [] => []
  | b :: bs => if a < offsetLimit then (a, b) :: cellsFrom (a + 1) bs else []

/-- The canonical form of the buffer: every offset is one (below 2^64), and offsets strictly rise. -/
def Memory.wf : Memory → Bool
  | [] => true
  | (a, _) :: rest =>
    decide (a < offsetLimit) &&
      (match rest with
      | [] => true
      | (c, _) :: _ => decide (a < c)) &&
      Memory.wf rest

/-- Why a buffer read yields no value. -/
inductive ReadStop where
  /-- R27: not in range of `LEN`; the command raises `BufRange(off)` -/
  | outOfRange (off : Nat)
  /-- U6: in range, but the host has bound no byte at `off` -/
  | unbacked (off : Nat)
deriving DecidableEq, Repr

/-- What a rule that reads the buffer gives: a value, or why there is none. -/
abbrev Reading (α : Type) := Except ReadStop α

/-- R26: the `n` bytes from `off` on, lowest offset first. -/
def readBytes (m : Memory) (off : Nat) : Nat → Reading (List Byte)
  | 0 => .ok []
  | n + 1 =>
    match byteAt m off with
    | none => .error (.unbacked off)
    | some b => (readBytes m (off + 1) n).map (b :: ·)

/-- R26: the number whose byte `j` is the `j`-th of the list: the least significant byte first. -/
def leNat : List Byte → Nat
  | [] => 0
  | b :: bs => b.toNat + 256 * leNat bs

/-- R27: `off + n <= LEN`, the sum taken without wraparound. -/
def inRange (len : Word) (off n : Nat) : Bool := decide (off + n ≤ len.toNat)

/-- R26, R27: `MemRead(off, n)`, zero-extended to 64 bits (R30). The range check comes first. -/
def memRead (m : Memory) (len : Word) (off n : Nat) : Reading Word :=
  if inRange len off n then (readBytes m off n).map (fun bs => BitVec.ofNat 64 (leNat bs))
  else .error (.outOfRange off)

/-! ### Starting and ending a command -/

/-- R40, first lines: a word is stored in `CMD` and its command starts. -/
def startCommand (s : State) (c : CmdWord) : State :=
  { s with
    cmd := c
    status := setStatusCause 0 (setStatusState .busy s.status)
    phase := .pDecode }

/-- R40, last line: `STATUS.STATE <- DONE ; PHASE <- P_IDLE`. -/
def endCommand (s : State) : State :=
  { s with status := setStatusState .done s.status, phase := .pIdle }

/-- R11, R67: a single-result command ends; `RES[1]` is unchanged. -/
def completeOne (s : State) (v : Word) : State := endCommand { s with res0 := v }

/-- R11: a two-result command ends; both halves are written together. -/
def completePair (s : State) (p : Pair) : State :=
  endCommand { s with res0 := p.first, res1 := p.second }

/-- U4: the hidden registers become unspecified (nine free values). -/
def forgetHidden (s : State) : State :=
  { s with hidden := Hidden.free s.draws, draws := s.draws + 9 }

/-- R68, R16: a digest command ends. The hidden registers are used only when `LEN > 64` and are
unspecified afterwards (DESIGN CHOICE, log entry 19). -/
def completeDigest (s : State) (d : Word) : State :=
  completeOne (if 64 < s.len.toNat then forgetHidden s else s) d

/-! ### Faults and reset -/

/-- R95: `raise F(info)`. `CMD`, `OP` and `LEN` are kept; `RES` and the hidden registers become
unspecified (eleven free values, U3, U4). -/
def raiseFault (s : State) (c : Cause) (info : Word) : State :=
  { s with
    finfo := info
    status := setStatusState .fault (setStatusCause (causeCode c) s.status)
    phase := .pIdle
    res0 := Config.free s.draws
    res1 := Config.free (s.draws + 1)
    hidden := Hidden.free (s.draws + 2)
    draws := s.draws + 11 }

/-- R93, R21: `IllegalCmd`, with the command word zero-extended. -/
def raiseIllegal (s : State) : State := raiseFault s .illegalCmd (s.cmd.setWidth 64)

/-- R105, R106: the reset event, in any state. The operand, result and hidden registers become
unspecified (seventeen free values); the buffer bytes, the held accesses and what the host has read
are not CH64's and stay (DEDUCED, log entry 21). -/
def resetEvent (s : State) : State :=
  { s with
    ops := OpFile.free s.draws
    res0 := Config.free (s.draws + 6)
    res1 := Config.free (s.draws + 7)
    len := 0
    cmd := 0
    status := 0
    finfo := 0
    hidden := Hidden.free (s.draws + 8)
    phase := .pIdle
    draws := s.draws + 17 }

/-! ### From a reading to the outcome of a command -/

/-- A read that yields no value: `BufRange` enters the fault state (R92, R95); an unbacked byte stops
the machine (U6). -/
def readStopped (s : State) : ReadStop → Host.Outcome State Fault Refusal
  | .outOfRange off => .next (raiseFault s .bufRange (BitVec.ofNat 64 off))
  | .unbacked off => .fault (.unbackedByte off)

/-- The outcome of a command that reads the buffer: what `done` makes of the value read, or the stop. -/
def settle {α : Type} (s : State) (r : Reading α) (done : α → State) :
    Host.Outcome State Fault Refusal :=
  match r with
  | .ok v => .next (done v)
  | .error e => readStopped s e

end Sys2Proof.Machine
end

