-- ==== Sys2Proof/Machine/Operands.lean ====
section
/-! DEFINITION. The operand forms: operand registers (R10, R44), width codes (R42), and the fetch
functions of each width (40_mixing_primitives.md R53). -/

namespace Sys2Proof.Machine

/-- R42: the width a command's `wd` selects. -/
inductive Width where
  | b
  | h
  | w
  | d
deriving DecidableEq, Repr

/-- R42: the byte count, `2^wd`. -/
def widthBytes : Width → Nat
  | .b => 1
  | .h => 2
  | .w => 4
  | .d => 8

/-- R10: `OP[i]`. -/
def readOp (o : OpFile) (i : Fin 6) : Word :=
  match i with
  | 0 => o.o0
  | 1 => o.o1
  | 2 => o.o2
  | 3 => o.o3
  | 4 => o.o4
  | 5 => o.o5

/-- R10, R18: `OP[i] <- v`, a host write; every other operand register is kept. -/
def writeOp (o : OpFile) (i : Fin 6) (v : Word) : OpFile :=
  match i with
  | 0 => { o with o0 := v }
  | 1 => { o with o1 := v }
  | 2 => { o with o2 := v }
  | 3 => { o with o3 := v }
  | 4 => { o with o4 := v }
  | 5 => { o with o5 := v }

/-- R53: `Fetch8(off)`. -/
def fetch8 (m : Memory) (len : Word) (off : Nat) : Reading Word := memRead m len off 1

/-- R53: `Fetch16(off)`; used by no handler, `FETCH.H` reads this width. -/
def fetch16 (m : Memory) (len : Word) (off : Nat) : Reading Word := memRead m len off 2

/-- R53: `Fetch32(off)`. -/
def fetch32 (m : Memory) (len : Word) (off : Nat) : Reading Word := memRead m len off 4

/-- R53: `Fetch64(off)`. -/
def fetch64 (m : Memory) (len : Word) (off : Nat) : Reading Word := memRead m len off 8

end Sys2Proof.Machine
end

