-- ==== Sys2Proof/Machine/HostPort.lean ====
section
/-! DEFINITION. The host's accesses (10_state.md R18, R19; 60_exceptions.md R96; 70_reset_and_hazards.md
R106, R110). -/

namespace Sys2Proof.Machine

/-- R18: the number of a register. -/
def regNumber : HostReg → Nat
  | .cmd => 0
  | .status => 1
  | .len => 2
  | .finfo => 3
  | .op i => 4 + i.val
  | .res i => 10 + i.val

/-- R18: the register of a number; a number above 11 is not part of CH64. -/
def regOfNumber (n : Nat) : Option HostReg :=
  match n with
  | 0 => some .cmd
  | 1 => some .status
  | 2 => some .len
  | 3 => some .finfo
  | 4 => some (.op 0)
  | 5 => some (.op 1)
  | 6 => some (.op 2)
  | 7 => some (.op 3)
  | 8 => some (.op 4)
  | 9 => some (.op 5)
  | 10 => some (.res 0)
  | 11 => some (.res 1)
  | _ => none

/-- R18: what a read of a register returns; a 32-bit register is zero-extended. -/
def readReg (s : State) (r : HostReg) : Word :=
  match r with
  | .cmd => s.cmd.setWidth 64
  | .status => (statusRead s.status).setWidth 64
  | .len => s.len
  | .finfo => s.finfo
  | .op i => readOp s.ops i
  | .res i => match i with
    | 0 => s.res0
    | 1 => s.res1

/-- A completed read hands its value to the host. -/
def completeRead (s : State) (r : HostReg) : State :=
  { s with replies := s.replies ++ [(r, readReg s r)] }

/-- R18: the effect of a write while writes take effect. `CMD` is 32 bits wide and takes the low 32
(DEDUCED, log entry 18). -/
def storeReg (s : State) (r : HostReg) (v : Word) : State :=
  match r with
  | .cmd => startCommand s (v.setWidth 32)
  | .len => { s with len := v }
  | .op i => { s with ops := writeOp s.ops i v }
  | .status => s
  | .finfo => s
  | .res _ => s

/-- R13, R96: a write takes effect in `IDLE` and `DONE` and is ignored in `FAULT`. In `BUSY` it has no
effect until the command ends (R19), which `accessTurn` sees to by holding it. -/
def writeReg (s : State) (r : HostReg) (v : Word) : State :=
  match runState s with
  | .idle => storeReg s r v
  | .done => storeReg s r v
  | .busy => s
  | .fault => s

/-- The effect of an access that completes. -/
def completeAccess (s : State) (a : Access) : State :=
  match a with
  | .read r => completeRead s r
  | .write r v => writeReg s r v

/-- R19: every register access except a read of `STATUS` is held while `BUSY`. -/
def heldWhileBusy (a : Access) : Bool :=
  match a with
  | .read r => decide (r ≠ .status)
  | .write _ _ => true

/-- R19: an access that must wait joins the held ones; one that need not, completes. -/
def accessTurn (s : State) (a : Access) : State :=
  if runState s = .busy ∧ heldWhileBusy a then { s with held := s.held ++ [a] }
  else completeAccess s a

/-- A change of the buffer or of its binding, which the host may make only while no command runs (R33,
R110). A change while one runs is the breach of duty that U5 has the model refuse (log entry 8). -/
def bufferTurn (s : State) (m : Memory) : Host.Outcome State Fault Refusal :=
  if runState s = .busy then .refused .bufferMoveWhileBusy else .next { s with buf := m }

/-- R110: the host makes a move. -/
def hostTurn (s : State) (m : HostMove) : Host.Outcome State Fault Refusal :=
  match m with
  | .access a => .next (accessTurn s a)
  | .bind bytes => bufferTurn s (cellsFrom 0 bytes)
  | .poke off b => bufferTurn s (putByte off.toNat b s.buf)
  | .release => bufferTurn s []
  | .reset => .next (resetEvent s)

end Sys2Proof.Machine
end

