-- ==== Sys2Proof/WellFormed.lean ====
section
/-! DEFINITION. When a command word is legal, field by field (30_encoding.md R39, R45), and when an
instruction is well formed. -/

namespace Sys2Proof

/-- R39: the four fields of a command word. -/
structure CmdFields where
  /-- bits 7:0 -/
  op : BitVec 8
  /-- bits 13:8 -/
  sh : BitVec 6
  /-- bits 15:14 -/
  wd : BitVec 2
  /-- bits 31:16 -/
  zero : BitVec 16
deriving DecidableEq, Repr

/-- R45 clause 1: `c[31:16] = 0`. -/
def CmdFields.zeroOk (f : CmdFields) : Bool := f.zero == 0

/-- R45 clause 2: `c[7:0]` is one of `0x01` to `0x09`, `0x10`, `0x11`, `0x12`. -/
def CmdFields.opOk (f : CmdFields) : Bool :=
  (1 ≤ f.op.toNat && f.op.toNat ≤ 9) || (0x10 ≤ f.op.toNat && f.op.toNat ≤ 0x12)

/-- R45 clause 3: `c[13:8] = 0` unless `c[7:0] = 0x01`. -/
def CmdFields.shiftOk (f : CmdFields) : Bool := f.sh == 0 || f.op == 0x01

/-- R45 clause 4: `c[15:14] = 0` unless `c[7:0]` is `0x02` or `0x03`. -/
def CmdFields.widthOk (f : CmdFields) : Bool := f.wd == 0 || f.op == 0x02 || f.op == 0x03

/-- R45: a command word is legal exactly when all four clauses hold. -/
def CmdFields.legal (f : CmdFields) : Bool := f.zeroOk && f.opOk && f.shiftOk && f.widthOk

/-- R42: every operand of an instruction is in the range of its field. The type of `Instr` already
holds each operand at its field's width, so the check refuses no term of the type; what can be ill
formed is a word, which `CmdFields.legal` refuses. -/
def Instr.wellFormed : Instr → Bool
  | .rotr sh => decide (sh.toNat ≤ 63)
  | .bswapB | .bswapH | .bswapW | .bswapD => true
  | .fetchB | .fetchH | .fetchW | .fetchD => true
  | .shmix | .h128 | .hl16 | .hl16m | .weak32 | .weak32b => true
  | .hash | .hashs | .hashss => true

end Sys2Proof
end

