-- ==== Sys2Proof/Decode.lean ====
section
/-! DEFINITION. The decoder, total on the 2^32 command words and rejecting by name, and after it the
encoder (30_encoding.md R39 to R45, R47). -/

namespace Sys2Proof

/-- R39: the fields of a command word, bit 0 the least significant. -/
def fieldsOf (c : CmdWord) : CmdFields where
  op := c.extractLsb' 0 8
  sh := c.extractLsb' 8 6
  wd := c.extractLsb' 14 2
  zero := c.extractLsb' 16 16

/-- Why a word is not a command: the clause of R45 it breaks (1 to 4). -/
inductive Reject where
  /-- clause 1: bits 31:16 are not 0 -/
  | zeroFieldSet
  /-- clause 2: a reserved operation code -/
  | reservedOp
  /-- clause 3: `sh` is not 0 in a command that does not use it -/
  | shiftFieldSet
  /-- clause 4: `wd` is not 0 in a command that does not use it -/
  | widthFieldSet
deriving DecidableEq, Repr

/-- R41, format `C0`: neither `sh` nor `wd` is free. -/
def formatC0 (f : CmdFields) (i : Instr) : Except Reject Instr :=
  if f.sh ≠ 0 then .error .shiftFieldSet
  else if f.wd ≠ 0 then .error .widthFieldSet
  else .ok i

/-- R41, format `CS`: `sh` is free. -/
def formatCS (f : CmdFields) (i : BitVec 6 → Instr) : Except Reject Instr :=
  if f.wd ≠ 0 then .error .widthFieldSet else .ok (i f.sh)

/-- R41, R42, format `CW`: `wd` is free and selects the row of the width. -/
def formatCW (f : CmdFields) (b h w d : Instr) : Except Reject Instr :=
  if f.sh ≠ 0 then .error .shiftFieldSet
  else match f.wd.toNat with
    | 0 => .ok b
    | 1 => .ok h
    | 2 => .ok w
    | _ => .ok d

/-- R43, R45: the opcode map. -/
def decodeFields (f : CmdFields) : Except Reject Instr :=
  if f.zero ≠ 0 then .error .zeroFieldSet
  else match f.op.toNat with
    | 0x01 => formatCS f .rotr
    | 0x02 => formatCW f .bswapB .bswapH .bswapW .bswapD
    | 0x03 => formatCW f .fetchB .fetchH .fetchW .fetchD
    | 0x04 => formatC0 f .shmix
    | 0x05 => formatC0 f .h128
    | 0x06 => formatC0 f .hl16
    | 0x07 => formatC0 f .hl16m
    | 0x08 => formatC0 f .weak32
    | 0x09 => formatC0 f .weak32b
    | 0x10 => formatC0 f .hash
    | 0x11 => formatC0 f .hashs
    | 0x12 => formatC0 f .hashss
    | _ => .error .reservedOp

/-- R45: every word is exactly one legal command or is rejected. -/
def decode (c : CmdWord) : Except Reject Instr := decodeFields (fieldsOf c)

/-- R47: the encoding of a line is `op + (sh << 8) + (wd << 14)`. -/
def packWord (op : BitVec 8) (sh : BitVec 6) (wd : BitVec 2) : CmdWord :=
  op.setWidth 32 + (sh.setWidth 32 <<< 8) + (wd.setWidth 32 <<< 14)

/-- R43: the word of a command. -/
def encode : Instr → CmdWord
  | .rotr sh => packWord 0x01 sh 0
  | .bswapB => packWord 0x02 0 0
  | .bswapH => packWord 0x02 0 1
  | .bswapW => packWord 0x02 0 2
  | .bswapD => packWord 0x02 0 3
  | .fetchB => packWord 0x03 0 0
  | .fetchH => packWord 0x03 0 1
  | .fetchW => packWord 0x03 0 2
  | .fetchD => packWord 0x03 0 3
  | .shmix => packWord 0x04 0 0
  | .h128 => packWord 0x05 0 0
  | .hl16 => packWord 0x06 0 0
  | .hl16m => packWord 0x07 0 0
  | .weak32 => packWord 0x08 0 0
  | .weak32b => packWord 0x09 0 0
  | .hash => packWord 0x10 0 0
  | .hashs => packWord 0x11 0 0
  | .hashss => packWord 0x12 0 0

/-- The mask and the match of an instruction's row in opcode_table.json: a word `c` selects the row
exactly when `c AND mask = match` (R43). -/
def rowOf : Instr → CmdWord × CmdWord
  | .rotr _ => (0xFFFFC0FF, 0x00000001)
  | .bswapB => (0xFFFFFFFF, 0x00000002)
  | .bswapH => (0xFFFFFFFF, 0x00004002)
  | .bswapW => (0xFFFFFFFF, 0x00008002)
  | .bswapD => (0xFFFFFFFF, 0x0000C002)
  | .fetchB => (0xFFFFFFFF, 0x00000003)
  | .fetchH => (0xFFFFFFFF, 0x00004003)
  | .fetchW => (0xFFFFFFFF, 0x00008003)
  | .fetchD => (0xFFFFFFFF, 0x0000C003)
  | .shmix => (0xFFFFFFFF, 0x00000004)
  | .h128 => (0xFFFFFFFF, 0x00000005)
  | .hl16 => (0xFFFFFFFF, 0x00000006)
  | .hl16m => (0xFFFFFFFF, 0x00000007)
  | .weak32 => (0xFFFFFFFF, 0x00000008)
  | .weak32b => (0xFFFFFFFF, 0x00000009)
  | .hash => (0xFFFFFFFF, 0x00000010)
  | .hashs => (0xFFFFFFFF, 0x00000011)
  | .hashss => (0xFFFFFFFF, 0x00000012)

/-- The instruction the decoder reads from a table word: `nbits` bits of `w`, the rest zero. A command
is one word that crosses the interface as a number (R39), so no byte order enters. -/
def decodeTableWord (nbits w : Nat) : Option Instr :=
  (decode (BitVec.ofNat 32 (w % 2 ^ nbits))).toOption

end Sys2Proof
end

