-- ==== Sys2Proof/Machine/Params.lean ====
section
/-! DEFINITION. The four constants (10_state.md R9) and the parameter `TRUNC_RULE` at its default
(42_streaming_pipeline.md R81). -/

namespace Sys2Proof.Machine

/-- R9: `K0`. -/
def k0 : Word := 0xc3a5c85c97cb3127

/-- R9: `K1`. -/
def k1 : Word := 0xb492b66fbe98f273

/-- R9: `K2`. -/
def k2 : Word := 0x9ae16a3b2f90404f

/-- R9: `KMUL`, used only in `Hash128to64`. -/
def kMul : Word := 0x9ddfea08eb382d69

/-- R81, D30: `TRUNC_RULE`, default `REF` (log entry 9). -/
def truncRule : TruncRule := .ref

end Sys2Proof.Machine
end

