-- ==== Sys2Proof/Machine/Mixing.lean ====
section
/-! DEFINITION. The mixing primitives as functions (40_mixing_primitives.md R49 to R65), each defined
once and used by its command and by the digest handlers alike (R67). R57, R59, R61, R63 and R65 are from
general knowledge (UNVERIFIED, log entry 10). -/

namespace Sys2Proof.Machine

/-- R49: circular right rotation; `s = 0` is the identity. -/
def rotate (v : Word) (s : BitVec 6) : Word :=
  if s = 0 then v else (v >>> s.toNat) ||| (v <<< (64 - s.toNat))

/-- The low `n` bytes of a value, byte 0 first (00_scope.md section 5). -/
def leBytes (v : Word) : Nat → List Byte
  | 0 => []
  | n + 1 => v.setWidth 8 :: leBytes (v >>> 8) n

/-- R51: `ByteSwap_n` of the low `8n` bits, zero-extended: byte `j` of the result is byte `n - 1 - j`. -/
def byteSwapN (n : Nat) (v : Word) : Word := BitVec.ofNat 64 (leNat (leBytes v n).reverse)

/-- R51: `ByteSwap`, that is `ByteSwap_8`, the one the handlers use. -/
def byteSwap (v : Word) : Word := byteSwapN 8 v

/-- R55. -/
def shiftMix (v : Word) : Word := v ^^^ (v >>> 47)

/-- R61: the three-argument `HashLen16`. -/
def hashLen16Mul (u v mul : Word) : Word :=
  let a := (u ^^^ v) * mul
  let a := a ^^^ (a >>> 47)
  let b := (v ^^^ a) * mul
  let b := b ^^^ (b >>> 47)
  b * mul

/-- R57: the 128-to-64 compressor. -/
def hash128to64 (p : Pair) : Word :=
  let a := (p.first ^^^ p.second) * kMul
  let a := a ^^^ (a >>> 47)
  let b := (p.second ^^^ a) * kMul
  let b := b ^^^ (b >>> 47)
  b * kMul

/-- R59: the first argument becomes `first`, the second `second`. -/
def hashLen16 (u v : Word) : Word := hash128to64 ⟨u, v⟩

/-- R63: the scalar form. -/
def weakHash (w x y z a b : Word) : Pair :=
  let a := a + w
  let b := rotate (b + a + z) 21
  let c := a
  let a := a + x
  let a := a + y
  let b := b + rotate a 44
  ⟨a + z, b + c⟩

/-- R65: the buffer form; the reads are made in this order, at offsets taken without wraparound (R66). -/
def weakHashBuf (m : Memory) (len : Word) (off : Nat) (a b : Word) : Reading Pair := do
  let w ← fetch64 m len off
  let x ← fetch64 m len (off + 8)
  let y ← fetch64 m len (off + 16)
  let z ← fetch64 m len (off + 24)
  .ok (weakHash w x y z a b)

end Sys2Proof.Machine
end

