-- ==== Sys2Proof/Machine/Handlers.lean ====
section
/-! DEFINITION. The digest handlers for buffers of at most 64 bytes (41_digest_dispatcher.md R70 to
R76). Offsets are natural numbers: no `LEN - k` of a handler goes below 0 for the lengths the
dispatcher sends it (R77; log entry 16). -/

namespace Sys2Proof.Machine

/-- R75: `Mul(LEN) = K2 + 2 * LEN`. -/
def lenMul (len : Word) : Word := k2 + 2 * len

/-- R71: `1 <= LEN <= 3`. `y` and `z` are 32 bits wide, the products 64 (R6, C3). -/
def len1to3 (m : Memory) (len : Word) : Reading Word := do
  let n := len.toNat
  let a ← fetch8 m len 0
  let b ← fetch8 m len (n >>> 1)
  let c ← fetch8 m len (n - 1)
  let y : BitVec 32 := (a + (b <<< 8)).setWidth 32
  let z : BitVec 32 := (len + (c <<< 2)).setWidth 32
  .ok (shiftMix ((y.setWidth 64 * k2) ^^^ (z.setWidth 64 * k0)) * k2)

/-- R72: `4 <= LEN <= 7`. -/
def len4to7 (m : Memory) (len : Word) : Reading Word := do
  let n := len.toNat
  let mul := lenMul len
  let a ← fetch32 m len 0
  let b ← fetch32 m len (n - 4)
  .ok (hashLen16Mul (len + (a <<< 3)) b mul)

/-- R73: `8 <= LEN <= 16`. -/
def len8to16 (m : Memory) (len : Word) : Reading Word := do
  let n := len.toNat
  let mul := lenMul len
  let w0 ← fetch64 m len 0
  let a := w0 + k2
  let b ← fetch64 m len (n - 8)
  let c := rotate b 37 * mul + a
  let d := (rotate a 25 + b) * mul
  .ok (hashLen16Mul c d mul)

/-- R74: `17 <= LEN <= 32`. -/
def len17to32 (m : Memory) (len : Word) : Reading Word := do
  let n := len.toNat
  let mul := lenMul len
  let w0 ← fetch64 m len 0
  let a := w0 * k1
  let b ← fetch64 m len 8
  let w2 ← fetch64 m len (n - 8)
  let c := w2 * mul
  let w3 ← fetch64 m len (n - 16)
  let d := w3 * k2
  .ok (hashLen16Mul (rotate (a + b) 43 + rotate c 30 + d) (a + rotate (b + k2) 18 + c) mul)

/-- R76, after its eight reads: the mix of the 33 to 64 byte handler on the words read at offsets 0, 8,
`LEN - 24`, `LEN - 32`, 16, 24, `LEN - 8`, `LEN - 16`. It has three byte swaps (C2). -/
def mix33to64 (mul w0 b c d w16 w24 g wl16 : Word) : Word :=
  let a := w0 * k2
  let e := w16 * k2
  let f := w24 * 9
  let h := wl16 * mul
  let u := rotate (a + g) 43 + (rotate b 30 + c) * 9
  let v := ((a + g) ^^^ d) + f + 1
  let w := byteSwap ((u + v) * mul) + h
  let x := rotate (e + f) 42 + c
  let y := (byteSwap ((v + w) * mul) + g) * mul
  let z := e + f + c
  let a := byteSwap ((x + z) * mul + y) + b
  let b := shiftMix ((z + a) * mul + d + h) * mul
  b + x

/-- R76: `33 <= LEN <= 64`. -/
def len33to64 (m : Memory) (len : Word) : Reading Word := do
  let n := len.toNat
  let w0 ← fetch64 m len 0
  let b ← fetch64 m len 8
  let c ← fetch64 m len (n - 24)
  let d ← fetch64 m len (n - 32)
  let w16 ← fetch64 m len 16
  let w24 ← fetch64 m len 24
  let g ← fetch64 m len (n - 8)
  let wl16 ← fetch64 m len (n - 16)
  .ok (mix33to64 (lenMul len) w0 b c d w16 w24 g wl16)

/-- R69, R70, the buckets up to 64 bytes: the handler `LEN` selects. `LEN = 0` makes no read. -/
def shortDigest (m : Memory) (len : Word) : Reading Word :=
  let n := len.toNat
  if n = 0 then .ok k2
  else if n ≤ 3 then len1to3 m len
  else if n ≤ 7 then len4to7 m len
  else if n ≤ 16 then len8to16 m len
  else if n ≤ 32 then len17to32 m len
  else len33to64 m len

end Sys2Proof.Machine
end

