-- ==== Sys2Proof/Machine/Pipeline.lean ====
section
/-! DEFINITION. The pipeline for buffers longer than 64 bytes (42_streaming_pipeline.md R78 to R85) and
the whole digest function (41_digest_dispatcher.md R69). R79 to R82 are from general knowledge
(UNVERIFIED, log entry 10); the order of the reads is that of the rules (log entry 20). -/

namespace Sys2Proof.Machine

/-- R81: the working length `REM` that priming leaves. -/
def truncateLen (rule : TruncRule) (len : Word) : Word :=
  match rule with
  | .ref => (len - 1) &&& ~~~63#64
  | .literal => len &&& ~~~63#64

/-- R79, R80, R81: priming. `Wp` uses the `X` of R79, before R80 replaces it. -/
def primePipeline (rule : TruncRule) (m : Memory) (len : Word) : Reading Hidden := do
  let n := len.toNat
  let x ← fetch64 m len (n - 40)
  let y0 ← fetch64 m len (n - 16)
  let y1 ← fetch64 m len (n - 56)
  let y := y0 + y1
  let z0 ← fetch64 m len (n - 48)
  let z1 ← fetch64 m len (n - 24)
  let z := hashLen16 (z0 + len) z1
  let v ← weakHashBuf m len (n - 64) len z
  let wp ← weakHashBuf m len (n - 32) (y + k1) x
  let front ← fetch64 m len 0
  .ok { x := x * k1 + front, y := y, z := z, v := v, wp := wp,
        pos := 0, rem := truncateLen rule len }

/-- R82: one block step, its lines in the order written; the last three exchange `Z` and `X` and move
past the block. -/
def blockStep (m : Memory) (len : Word) (h : Hidden) : Reading Hidden := do
  let p := h.pos.toNat
  let w8 ← fetch64 m len (p + 8)
  let x := rotate (h.x + h.y + h.v.first + w8) 37 * k1
  let w48 ← fetch64 m len (p + 48)
  let y := rotate (h.y + h.v.second + w48) 42 * k1
  let x := x ^^^ h.wp.second
  let w40 ← fetch64 m len (p + 40)
  let y := y + h.v.first + w40
  let z := rotate (h.z + h.wp.first) 33 * k1
  let v ← weakHashBuf m len p (h.v.second * k1) (x + h.wp.first)
  let w16 ← fetch64 m len (p + 16)
  let wp ← weakHashBuf m len (p + 32) (z + h.wp.second) (y + w16)
  .ok { x := z, y := y, z := x, v := v, wp := wp, pos := h.pos + 64, rem := h.rem - 64 }

/-- R83: repeat the block step until `REM = 0`, at most `fuel` times. -/
def blockLoop (m : Memory) (len : Word) : Nat → Hidden → Reading Hidden
  | 0, h => .ok h
  | fuel + 1, h => do
    let h' ← blockStep m len h
    if h'.rem = 0 then .ok h' else blockLoop m len fuel h'

/-- R85: the final mix. -/
def finalMix (h : Hidden) : Word :=
  hashLen16 (hashLen16 h.v.first h.wp.first + shiftMix h.y * k1 + h.z)
    (hashLen16 h.v.second h.wp.second + h.x)

/-- R78: `LenOver64()`. The loop has `NB = REM / 64` steps to make (R81, R83). -/
def lenOver64 (rule : TruncRule) (m : Memory) (len : Word) : Reading Word := do
  let h ← primePipeline rule m len
  let h ← blockLoop m len (h.rem.toNat / 64) h
  .ok (finalMix h)

/-- R69: `Hash64()`, dispatched on `LEN` alone. -/
def digestOf (rule : TruncRule) (m : Memory) (len : Word) : Reading Word :=
  if 64 < len.toNat then lenOver64 rule m len else shortDigest m len

end Sys2Proof.Machine
end

