-- ==== Sys2Proof/Machine/Digests.lean ====
section
/-! DEFINITION. The digest commands `HASH` (41_digest_dispatcher.md R68), `HASHS` and `HASHSS`
(43_seeded_entry_points.md R87 to R89). -/

namespace Sys2Proof.Machine

/-- R89: `SeedMix(d, s0, s1)`, the subtraction modulo 2^64. -/
def seedMix (d s0 s1 : Word) : Word := hashLen16 (d - s0) s1

/-- R68. -/
def execHash (s : State) : Host.Outcome State Fault Refusal :=
  settle s (digestOf truncRule s.buf s.len) (completeDigest s)

/-- R87: the first seed is `K2`; `OP[0]` is ignored. -/
def execHashs (s : State) : Host.Outcome State Fault Refusal :=
  settle s (digestOf truncRule s.buf s.len) (fun d => completeDigest s (seedMix d k2 s.ops.o1))

/-- R88: the un-seeded digest is left nowhere. -/
def execHashss (s : State) : Host.Outcome State Fault Refusal :=
  settle s (digestOf truncRule s.buf s.len)
    (fun d => completeDigest s (seedMix d s.ops.o0 s.ops.o1))

end Sys2Proof.Machine
end

