-- ==== Sys2Proof/Machine/Primitives.lean ====
section
/-! DEFINITION. The primitive commands (40_mixing_primitives.md R50 to R66): each writes its result and
ends `DONE`, or faults (R67). -/

namespace Sys2Proof.Machine

/-- R50: `RES[0] <- Rotate(OP[0], sh)`. -/
def execRotr (sh : BitVec 6) (s : State) : Host.Outcome State Fault Refusal :=
  .next (completeOne s (rotate s.ops.o0 sh))

/-- R52 at one width. -/
def bswapAt (n : Width) (s : State) : Host.Outcome State Fault Refusal :=
  .next (completeOne s (byteSwapN (widthBytes n) s.ops.o0))

/-- R52, `wd = 0`. -/
def execBswapB (s : State) : Host.Outcome State Fault Refusal := bswapAt .b s

/-- R52, `wd = 1`. -/
def execBswapH (s : State) : Host.Outcome State Fault Refusal := bswapAt .h s

/-- R52, `wd = 2`. -/
def execBswapW (s : State) : Host.Outcome State Fault Refusal := bswapAt .w s

/-- R52, `wd = 3`. -/
def execBswapD (s : State) : Host.Outcome State Fault Refusal := bswapAt .d s

/-- R54, `wd = 0`: `RES[0] <- Fetch8(OP[0])`. -/
def execFetchB (s : State) : Host.Outcome State Fault Refusal :=
  settle s (fetch8 s.buf s.len s.ops.o0.toNat) (completeOne s)

/-- R54, `wd = 1`: `RES[0] <- Fetch16(OP[0])`. -/
def execFetchH (s : State) : Host.Outcome State Fault Refusal :=
  settle s (fetch16 s.buf s.len s.ops.o0.toNat) (completeOne s)

/-- R54, `wd = 2`: `RES[0] <- Fetch32(OP[0])`. -/
def execFetchW (s : State) : Host.Outcome State Fault Refusal :=
  settle s (fetch32 s.buf s.len s.ops.o0.toNat) (completeOne s)

/-- R54, `wd = 3`: `RES[0] <- Fetch64(OP[0])`. -/
def execFetchD (s : State) : Host.Outcome State Fault Refusal :=
  settle s (fetch64 s.buf s.len s.ops.o0.toNat) (completeOne s)

/-- R56. -/
def execShmix (s : State) : Host.Outcome State Fault Refusal :=
  .next (completeOne s (shiftMix s.ops.o0))

/-- R58. -/
def execH128 (s : State) : Host.Outcome State Fault Refusal :=
  .next (completeOne s (hash128to64 ⟨s.ops.o0, s.ops.o1⟩))

/-- R60. -/
def execHl16 (s : State) : Host.Outcome State Fault Refusal :=
  .next (completeOne s (hashLen16 s.ops.o0 s.ops.o1))

/-- R62. -/
def execHl16m (s : State) : Host.Outcome State Fault Refusal :=
  .next (completeOne s (hashLen16Mul s.ops.o0 s.ops.o1 s.ops.o2))

/-- R64. -/
def execWeak32 (s : State) : Host.Outcome State Fault Refusal :=
  .next (completePair s
    (weakHash s.ops.o0 s.ops.o1 s.ops.o2 s.ops.o3 s.ops.o4 s.ops.o5))

/-- R66: `OP[1]`, `OP[2]`, `OP[3]` are ignored. -/
def execWeak32b (s : State) : Host.Outcome State Fault Refusal :=
  settle s (weakHashBuf s.buf s.len s.ops.o0.toNat s.ops.o4 s.ops.o5) (completePair s)

end Sys2Proof.Machine
end

