-- ==== Sys2Proof/Machine/Dispatch.lean ====
section
/-! DEFINITION. What each command does, from its decoding to its end (30_encoding.md R40, R43). -/

namespace Sys2Proof.Machine

def exec (i : Instr) (s : State) : Host.Outcome State Fault Refusal :=
  match i with
  | .rotr sh => Sys2Proof.Machine.execRotr sh s
  | .bswapB => Sys2Proof.Machine.execBswapB s
  | .bswapH => Sys2Proof.Machine.execBswapH s
  | .bswapW => Sys2Proof.Machine.execBswapW s
  | .bswapD => Sys2Proof.Machine.execBswapD s
  | .fetchB => Sys2Proof.Machine.execFetchB s
  | .fetchH => Sys2Proof.Machine.execFetchH s
  | .fetchW => Sys2Proof.Machine.execFetchW s
  | .fetchD => Sys2Proof.Machine.execFetchD s
  | .shmix => Sys2Proof.Machine.execShmix s
  | .h128 => Sys2Proof.Machine.execH128 s
  | .hl16 => Sys2Proof.Machine.execHl16 s
  | .hl16m => Sys2Proof.Machine.execHl16m s
  | .weak32 => Sys2Proof.Machine.execWeak32 s
  | .weak32b => Sys2Proof.Machine.execWeak32b s
  | .hash => Sys2Proof.Machine.execHash s
  | .hashs => Sys2Proof.Machine.execHashs s
  | .hashss => Sys2Proof.Machine.execHashss s

end Sys2Proof.Machine
end

