-- ==== Sys2Proof/Machine/Sequencer.lean ====
section
/-! DEFINITION. The sequencer (42_streaming_pipeline.md R86; 10_state.md R17): a command taken whole, or
phase by phase with one step per block. -/

namespace Sys2Proof.Machine

/-- Whether a command is one of the three digest commands. -/
def isDigest : Instr → Bool
  | .hash | .hashs | .hashss => true
  | .rotr _ | .bswapB | .bswapH | .bswapW | .bswapD => false
  | .fetchB | .fetchH | .fetchW | .fetchD => false
  | .shmix | .h128 | .hl16 | .hl16m | .weak32 | .weak32b => false

/-- R86: the phase after `P_DECODE`. `P_SHORT` is any handler with `LEN <= 64` and every primitive
command (R17). -/
def firstPhase (i : Instr) (len : Word) : Phase :=
  if isDigest i && decide (64 < len.toNat) then .pPrime else .pShort

/-- R87, R88: the two seeds of a seeded command; none for the others. -/
def seedsOf (i : Instr) (o : OpFile) : Option (Word × Word) :=
  match i with
  | .hashs => some (k2, o.o1)
  | .hashss => some (o.o0, o.o1)
  | .hash => none
  | .rotr _ | .bswapB | .bswapH | .bswapW | .bswapD => none
  | .fetchB | .fetchH | .fetchW | .fetchD => none
  | .shmix | .h128 | .hl16 | .hl16m | .weak32 | .weak32b => none

/-- R86: a digest is found: the seed mix comes next, or the command ends. -/
def withDigest (i : Instr) (s : State) (d : Word) : State :=
  match seedsOf i s.ops with
  | some _ => { s with phase := .pSeed d }
  | none => completeDigest s d

/-- R86, R89: the phase `P_SEED`, and the end of the command. -/
def seedPhase (i : Instr) (s : State) (d : Word) : State :=
  match seedsOf i s.ops with
  | some (s0, s1) => completeDigest s (seedMix d s0 s1)
  | none => completeDigest s d

/-- R80 to R81: priming is done. -/
def primed (s : State) (h : Hidden) : State := { s with hidden := h, phase := .pBlock }

/-- R83: a block step is done; the test comes after the step. -/
def blockDone (s : State) (h : Hidden) : State :=
  { s with hidden := h, phase := if h.rem = 0 then .pFinal else .pBlock }

/-- The sequencer takes one phase of the command `i` (R86). -/
def phaseOf (i : Instr) (s : State) : Host.Outcome State Fault Refusal :=
  match s.phase with
  | .pIdle => .next s
  | .pDecode => .next { s with phase := firstPhase i s.len }
  | .pShort =>
    if isDigest i then settle s (shortDigest s.buf s.len) (withDigest i s) else exec i s
  | .pPrime => settle s (primePipeline truncRule s.buf s.len) (primed s)
  | .pBlock => settle s (blockStep s.buf s.len s.hidden) (blockDone s)
  | .pFinal => .next (withDigest i s (finalMix s.hidden))
  | .pSeed d => .next (seedPhase i s d)

/-- The sequencer takes one phase of the command in `CMD`. An instance that runs no command is simply
idle and keeps all its registers (R101). An illegal word faults before any register or buffer read
(R40, R93). -/
def sequencePhase (s : State) : Host.Outcome State Fault Refusal :=
  if s.phase = .pIdle then .next s
  else match decode s.cmd with
    | .error _ => .next (raiseIllegal s)
    | .ok i => phaseOf i s

/-- The sequencer runs: a command that waits at `P_DECODE` runs whole, in one step, which R86 allows; a
command already under way takes its next phase (DESIGN CHOICE, log entries 4 and 17). -/
def sequenceCommand (s : State) : Host.Outcome State Fault Refusal :=
  if s.phase = .pDecode then
    match decode s.cmd with
    | .error _ => .next (raiseIllegal s)
    | .ok i => exec i s
  else sequencePhase s

/-- `n` phases one after another, with no host move between them. -/
def runPhases : Nat → State → Host.Outcome State Fault Refusal
  | 0, s => .next s
  | n + 1, s =>
    match sequencePhase s with
    | .next t => runPhases n t
    | .fault r => .fault r
    | .refused r => .refused r

end Sys2Proof.Machine
end

