-- ==== Sys2Proof/Machine/Turns.lean ====
section
/-! DEFINITION. The turns of an instance and its host: which agent moves, and what it does (10_state.md
R19; 42_streaming_pipeline.md R86; 70_reset_and_hazards.md R110). -/

namespace Sys2Proof.Machine

/-- R48: the host waits. While a command runs the sequencer moves and the host goes on waiting; when none
runs the wait is over. -/
def awaitTurn (s : State) (rest : List Turn) : Host.Outcome State Fault Refusal :=
  if runState s = .busy then sequenceCommand s else .next { s with agenda := rest }

/-- The turn the agenda names. With no turn left the sequencer runs (log entry 3). -/
def agendaTurn (s : State) : Host.Outcome State Fault Refusal :=
  match s.agenda with
  | [] => sequenceCommand s
  | .command :: rest => sequenceCommand { s with agenda := rest }
  | .phase :: rest => sequencePhase { s with agenda := rest }
  | .await :: rest => awaitTurn s rest
  | .host m :: rest => hostTurn { s with agenda := rest } m

/-- R19: when no command runs, the oldest held access completes before anything else happens
(DESIGN CHOICE, log entry 6). -/
def nextTurn (s : State) : Host.Outcome State Fault Refusal :=
  match s.held with
  | [] => agendaTurn s
  | a :: rest =>
    if runState s = .busy then agendaTurn s
    else .next (completeAccess { s with held := rest } a)

/-- The host has just written the word to `CMD` (R40), and the next turn is the sequencer's. -/
def placeCommand (s : State) (c : CmdWord) : State :=
  { startCommand s c with agenda := .command :: s.agenda }

end Sys2Proof.Machine
end

