-- ==== Sys2Proof/Machine/Step.lean ====
section
/-! DEFINITION. One step of an instance and its host. CH64 fetches nothing (10_state.md R17, 20_memory.md
R38): what runs is the word in `CMD`. -/

namespace Sys2Proof.Machine

/-- One step: a held access that can now complete, else the turn the agenda names. -/
def step (s : State) : Host.Outcome State Fault Refusal := nextTurn s

/-- The state in which the very next step decodes and runs the word: `nbits` bits of `w`, the rest zero
(log entry 13). -/
def State.withFetchWord (s : State) (nbits w : Nat) : State :=
  placeCommand s (BitVec.ofNat 32 (w % 2 ^ nbits))

end Sys2Proof.Machine
end

