-- ==== Sys2Proof/Machine/Script.lean ====
section
/-! DEFINITION. Assembler text and host scripts (30_encoding.md R47, R48). -/

namespace Sys2Proof.Machine

/-- R47: the text of a command. -/
def asmText : Instr → String
  | .rotr sh => "ROTR #" ++ toString sh.toNat
  | .bswapB => "BSWAP.B"
  | .bswapH => "BSWAP.H"
  | .bswapW => "BSWAP.W"
  | .bswapD => "BSWAP.D"
  | .fetchB => "FETCH.B"
  | .fetchH => "FETCH.H"
  | .fetchW => "FETCH.W"
  | .fetchD => "FETCH.D"
  | .shmix => "SHMIX"
  | .h128 => "H128"
  | .hl16 => "HL16"
  | .hl16m => "HL16M"
  | .weak32 => "WEAK32"
  | .weak32b => "WEAK32B"
  | .hash => "HASH"
  | .hashs => "HASHS"
  | .hashss => "HASHSS"

/-- Every instruction there is: `ROTR` with each amount, and the seventeen other rows. -/
def allInstrs : List Instr :=
  (List.range 64).map (fun n => .rotr (BitVec.ofNat 6 n)) ++
    [.bswapB, .bswapH, .bswapW, .bswapD, .fetchB, .fetchH, .fetchW, .fetchD, .shmix,
     .h128, .hl16, .hl16m, .weak32, .weak32b, .hash, .hashs, .hashss]

/-- R47: the word of an assembler line; mnemonics are case-insensitive. A line has the one spelling of
`asmText`: no leading zero in the amount of `ROTR`, one blank before it and no other (the model's choice, log
entry 26). -/
def assemble (line : String) : Option CmdWord :=
  (allInstrs.find? (fun i => (asmText i).toList == line.toList.map Char.toUpper)).map encode

/-- R48: the registers a `SET` line writes, `LEN` and `OP0` to `OP5`. -/
inductive SetReg where
  | len
  | op (i : Fin 6)
deriving DecidableEq, Repr

/-- The register a `SET` line names, as the host reaches it (R18). -/
def setTarget : SetReg → HostReg
  | .len => .len
  | .op i => .op i

/-- R48: the six kinds of script line. -/
inductive ScriptLine where
  /-- `RESET` -/
  | reset
  /-- `BUF <hex bytes>` -/
  | buf (bytes : List Byte)
  /-- `SET <reg>, <value>` -/
  | set (r : SetReg) (v : Word)
  /-- a mnemonic -/
  | command (i : Instr)
  /-- `CMD <word>`, a raw word -/
  | rawCmd (w : CmdWord)
  /-- `GET <reg>` -/
  | get (r : HostReg)
deriving DecidableEq, Repr

/-- An access of a script, after which the script goes on when the access has completed: an access that a
running command holds (R19) is followed by the wait for that command (DEDUCED, log entry 25). -/
def accessTurns (a : Access) : List Turn :=
  if heldWhileBusy a then [.host (.access a), .await] else [.host (.access a)]

/-- R48: write the word to `CMD`, then wait until `STATE` is not `BUSY`, a command that runs when the line
begins included: the write it holds completes first (R19). -/
def runWordTurns (w : CmdWord) : List Turn := accessTurns (.write .cmd (w.setWidth 64))

/-- R48: the turns a script line stands for. `BUF` waits until no command runs, since the host must not
change the binding before (R110; DEDUCED, log entry 25), binds the bytes and writes their count to `LEN`. -/
def lineTurns : ScriptLine → List Turn
  | .reset => [.host .reset]
  | .buf bytes =>
    [.await, .host (.bind bytes), .host (.access (.write .len (BitVec.ofNat 64 bytes.length)))]
  | .set r v => accessTurns (.write (setTarget r) v)
  | .command i => runWordTurns (encode i)
  | .rawCmd w => runWordTurns w
  | .get r => accessTurns (.read r)

/-- R48: a script is straight-line; its turns come after those already on the agenda. -/
def loadScript (s : State) (script : List ScriptLine) : State :=
  { s with agenda := s.agenda ++ script.flatMap lineTurns }

/-- `n` steps, one after another. -/
def runSteps : Nat → State → Host.Outcome State Fault Refusal
  | 0, s => .next s
  | n + 1, s =>
    match step s with
    | .next t => runSteps n t
    | .fault r => .fault r
    | .refused r => .refused r

end Sys2Proof.Machine
end

