-- ==== Sys2Proof/Machine/System.lean ====
section
/-! DEFINITION. Several instances and the open parameters of a platform (60_exceptions.md R102;
00_scope.md section 4; U7). -/

namespace Sys2Proof.Machine

/-- R102: the instances of a system; each has a complete state of its own, its buffer binding included. -/
abbrev System := List State

/-- R102: `N_INST >= 1`, and the system has that many instances. -/
def systemFits (p : Config.Platform) (sys : System) : Prop := 1 ≤ p.nInst ∧ sys.length = p.nInst

/-- R102: instance `k` takes a step, in any relative order with the others (log entry 12). -/
def systemStep (k : Nat) (sys : System) : Host.Outcome System Fault Refusal :=
  match sys[k]? with
  | none => .next sys
  | some s =>
    match step s with
    | .next t => .next (sys.set k t)
    | .fault r => .fault r
    | .refused r => .refused r

/-- R102: a new system, every instance just reset; there is no start-up order. All its instances hold the
same free values in the registers without a reset value (U1, U2, U4), where the spec lets each hold its own:
DESIGN CHOICE, unsafe, log entry 27. -/
def resetSystem (p : Config.Platform) : System := List.replicate p.nInst State.reset

/-- R18: the register at a bus address, under the platform's `REG_MAP`. -/
def regAtBus (p : Config.Platform) (addr : Nat) : Option HostReg :=
  ((List.range 12).find? (fun n => p.regMap n = addr)).bind regOfNumber

/-- R24: the platform can back a buffer of that many bytes. -/
def canBack (p : Config.Platform) (bytes : List Byte) : Prop := bytes.length ≤ p.maxLen.toNat

end Sys2Proof.Machine
end

