-- ==== Sys2Proof/Safety.lean ====
section
/-! DEFINITION. What claims are stated in: the host's duty towards the buffer, little-endian values, what
a command leaves unchanged, the entry into a fault, and the invariant of a run. -/

namespace Sys2Proof.Machine

/-- R24: the host backs every offset below `LEN` with a real byte. -/
def Backed (s : State) : Prop := ∀ off, off < s.len.toNat → ∃ b, byteAt s.buf off = some b

/-- The `n` bytes from `off` on are bound. -/
def BackedAt (m : Memory) (off n : Nat) : Prop := ∀ k, k < n → ∃ b, byteAt m (off + k) = some b

/-- R26: the number of the `n` bytes from `off` on, the lowest offset the least significant. An unbound
byte counts 0 here; statements use this only where the bytes are bound. -/
def bytesValue (m : Memory) (off n : Nat) : Nat :=
  ((List.range n).map (fun k => ((byteAt m (off + k)).getD 0).toNat * 2 ^ (8 * k))).sum

/-- The 64-bit value of the `n` bytes from `off` on. -/
def wordAt (m : Memory) (off n : Nat) : Word := BitVec.ofNat 64 (bytesValue m off n)

/-- What every command leaves as it was (R10, R12, R32, R67): the operand registers, `LEN`, `CMD`, every
byte of the buffer, and the host's side. -/
structure KeepsInputs (s t : State) : Prop where
  ops : t.ops = s.ops
  len : t.len = s.len
  cmd : t.cmd = s.cmd
  buffer : ∀ off, byteAt t.buf off = byteAt s.buf off
  held : t.held = s.held
  agenda : t.agenda = s.agenda
  replies : t.replies = s.replies

/-- R40, R67: a command ended without fault: `STATE` is `DONE` and every other bit of `STATUS` is as
before, `PHASE` is `P_IDLE`, `FINFO` is unchanged. -/
structure EndsDone (s t : State) : Prop where
  state : t.status.extractLsb' 0 2 = 2
  statusRest : t.status.extractLsb' 2 30 = s.status.extractLsb' 2 30
  phase : t.phase = .pIdle
  finfo : t.finfo = s.finfo

/-- A command that wrote at most the result registers and ended `DONE`. That the hidden registers are as
before is the model's reading of R16 (log entry 19). -/
structure OnlyResults (s t : State) : Prop where
  keeps : KeepsInputs s t
  ends : EndsDone s t
  hidden : t.hidden = s.hidden
  draws : t.draws = s.draws

/-- R11: a single-result command: `RES[0]` holds `v` and `RES[1]` is unchanged. -/
structure OneResult (s t : State) (v : Word) : Prop where
  res0 : t.res0 = v
  res1 : t.res1 = s.res1
  rest : OnlyResults s t

/-- R11: a two-result command. -/
structure TwoResults (s t : State) (p : Pair) : Prop where
  res0 : t.res0 = p.first
  res1 : t.res1 = p.second
  rest : OnlyResults s t

/-- R68, R16: a digest command: `RES[0]` holds `v`, `RES[1]` is unchanged; the hidden registers are
unchanged unless `LEN > 64` (the model's reading of R16 and R68, log entry 19), when they are unspecified
and nothing is said of them. -/
structure DigestResult (s t : State) (v : Word) : Prop where
  res0 : t.res0 = v
  res1 : t.res1 = s.res1
  keeps : KeepsInputs s t
  ends : EndsDone s t
  hidden : s.len.toNat ≤ 64 → t.hidden = s.hidden ∧ t.draws = s.draws

/-- R95: the entry into a fault. Of `RES` and the hidden registers nothing is said. -/
structure FaultEntry (s t : State) (c : Cause) (info : Word) : Prop where
  keeps : KeepsInputs s t
  finfo : t.finfo = info
  state : t.status.extractLsb' 0 2 = 3
  cause : t.status.extractLsb' 4 4 = (match c with | .bufRange => 1 | .illegalCmd => 2)
  statusRest : t.status.extractLsb' 2 2 = s.status.extractLsb' 2 2 ∧
    t.status.extractLsb' 8 24 = s.status.extractLsb' 8 24
  phase : t.phase = .pIdle

/-- R44: the operand registers whose value can affect the result. -/
def readsOps : Instr → List (Fin 6)
  | .rotr _ => [0]
  | .bswapB | .bswapH | .bswapW | .bswapD => [0]
  | .fetchB | .fetchH | .fetchW | .fetchD => [0]
  | .shmix => [0]
  | .h128 | .hl16 => [0, 1]
  | .hl16m => [0, 1, 2]
  | .weak32 => [0, 1, 2, 3, 4, 5]
  | .weak32b => [0, 4, 5]
  | .hash => []
  | .hashs => [1]
  | .hashss => [0, 1]

/-- R44: whether the command calls `MemRead`, and so depends on `LEN` and the buffer. -/
def readsBuffer : Instr → Bool
  | .fetchB | .fetchH | .fetchW | .fetchD | .weak32b | .hash | .hashs | .hashss => true
  | .rotr _ | .bswapB | .bswapH | .bswapW | .bswapD => false
  | .shmix | .h128 | .hl16 | .hl16m | .weak32 => false

/-- R109: whether the command writes `RES[1]`. -/
def writesPair : Instr → Bool
  | .weak32 | .weak32b => true
  | .rotr _ | .bswapB | .bswapH | .bswapW | .bswapD => false
  | .fetchB | .fetchH | .fetchW | .fetchD => false
  | .shmix | .h128 | .hl16 | .hl16m | .hash | .hashs | .hashss => false

/-- R34, R91: the commands that can raise `BufRange`. -/
def canLeaveRange : Instr → Bool
  | .fetchB | .fetchH | .fetchW | .fetchD | .weak32b => true
  | .rotr _ | .bswapB | .bswapH | .bswapW | .bswapD => false
  | .shmix | .h128 | .hl16 | .hl16m | .weak32 | .hash | .hashs | .hashss => false

/-- The block loop's registers while `PHASE` is `P_BLOCK`: `POS` and `REM` are multiples of 64, a block
remains, and together they make the working length of R81. -/
structure LoopInv (s : State) : Prop where
  long : 64 < s.len.toNat
  posBlocks : s.hidden.pos.toNat % 64 = 0
  remBlocks : s.hidden.rem.toNat % 64 = 0
  remains : 0 < s.hidden.rem.toNat
  total : s.hidden.pos.toNat + s.hidden.rem.toNat = (truncateLen truncRule s.len).toNat

/-- What R86 says holds at each phase. -/
def PhaseInv (s : State) : Prop :=
  match s.phase with
  | .pIdle => True
  | .pDecode => True
  | .pShort => ∃ i, decode s.cmd = .ok i ∧ (isDigest i → s.len.toNat ≤ 64)
  | .pPrime => ∃ i, decode s.cmd = .ok i ∧ isDigest i ∧ 64 < s.len.toNat
  | .pBlock => ∃ i, decode s.cmd = .ok i ∧ isDigest i ∧ LoopInv s
  | .pFinal => ∃ i, decode s.cmd = .ok i ∧ isDigest i ∧ 64 < s.len.toNat ∧ s.hidden.rem = 0
  | .pSeed _ => ∃ i, decode s.cmd = .ok i ∧ (i = .hashs ∨ i = .hashss)

/-- R91, R95: in `FAULT` the cause code is 1 or 2, and `CMD`, and for `IllegalCmd` `FINFO`, identify what
faulted. -/
def FaultInv (s : State) : Prop :=
  (statusCause s.status = 1 ∧ ∃ i, decode s.cmd = .ok i ∧ canLeaveRange i) ∨
  (statusCause s.status = 2 ∧ s.finfo = s.cmd.setWidth 64 ∧ ∀ i, decode s.cmd ≠ .ok i)

/-- The invariant of a run. -/
structure RunInv (s : State) : Prop where
  /-- the buffer is in its canonical form -/
  memory : s.buf.wf = true
  /-- R14: the reserved bits of `STATUS` are 0 -/
  reserved : s.status &&& 0xFFFFFF0C = 0
  /-- R14: `CAUSE` is 0 when `STATE` is not `FAULT` -/
  noCause : runState s ≠ .fault → statusCause s.status = 0
  /-- R91, R95 -/
  fault : runState s = .fault → FaultInv s
  /-- R40, R86: a command is running exactly when the sequencer is inside one -/
  running : runState s = .busy ↔ s.phase ≠ .pIdle
  /-- R86 -/
  phase : PhaseInv s

/-- A safe run: the machine goes on. The two ways it does not are an unbacked byte (U6) and a host that
changes the buffer under a running command (U5). -/
def goesOn (r : Host.Outcome State Fault Refusal) : Bool :=
  match r with
  | .next _ => true
  | .fault _ => false
  | .refused _ => false

end Sys2Proof.Machine
end

