-- ==== Sys2Proof/Certificates/Slice0/Obligations.lean ====
section
/-! DEFINITION. The statements about CH64, each from the rules its docstring cites. -/

open Sys2Proof Sys2Proof.Machine

/-! ### Encoding -/

/-- R43, R45, R47: a word decodes to an instruction exactly when it is that instruction's encoding; no bit
of a word is dropped, for every instruction and every value of `sh`. -/
def Obligations.DecodeInvertsEncode : Prop :=
  ∀ (c : CmdWord) (i : Instr), decode c = .ok i ↔ c = encode i

/-- R45: the legal words are exactly those the four clauses name, and at `P_DECODE` every other word
raises `IllegalCmd`. -/
def Obligations.LegalWordsAreTheDecodedOnes : Prop :=
  ∀ c : CmdWord,
    ((∃ i, decode c = .ok i) ↔
      (c.extractLsb' 16 16 = 0 ∧
       ((1 ≤ (c.extractLsb' 0 8).toNat ∧ (c.extractLsb' 0 8).toNat ≤ 9) ∨
        (c.extractLsb' 0 8).toNat ∈ [0x10, 0x11, 0x12]) ∧
       (c.extractLsb' 8 6 = 0 ∨ c.extractLsb' 0 8 = 0x01) ∧
       (c.extractLsb' 14 2 = 0 ∨ c.extractLsb' 0 8 = 0x02 ∨ c.extractLsb' 0 8 = 0x03))) ∧
    ((∀ i, decode c ≠ .ok i) → ∀ s : State, s.phase = .pDecode → s.cmd = c →
      sequenceCommand s = .next (raiseFault s .illegalCmd (c.setWidth 64)))

/-- R43: a word `c` selects a row exactly when `c AND mask = match`; for `ROTR` the row leaves `sh` free
and the instruction holds it. -/
def Obligations.TableRowsSelectWords : Prop :=
  ∀ (c : CmdWord) (i : Instr),
    decode c = .ok i ↔
      (c &&& (rowOf i).1 = (rowOf i).2 ∧ ∀ sh, i = .rotr sh → c.extractLsb' 8 6 = sh)

/-- 95_test_vectors.md 2.11: words of every family, written out from the encodings. -/
def Obligations.DecodesWordsOfEveryFamily : Prop :=
  decode 0x00000801 = .ok (.rotr 8) ∧ decode 0x00003f01 = .ok (.rotr 63) ∧
  decode 0x0000c002 = .ok .bswapD ∧ decode 0x00004003 = .ok .fetchH ∧
  decode 0x00000004 = .ok .shmix ∧ decode 0x00000007 = .ok .hl16m ∧
  decode 0x00000009 = .ok .weak32b ∧ decode 0x00000010 = .ok .hash ∧
  decode 0x00000012 = .ok .hashss ∧ decode 0x00000000 = .error .reservedOp ∧
  decode 0x00010010 = .error .zeroFieldSet ∧ decode 0x00000110 = .error .shiftFieldSet ∧
  decode 0x0000c004 = .error .widthFieldSet

/-! ### The step -/

/-- R40: when the word in `CMD` decodes to an instruction and the sequencer is at `P_DECODE`, the step is
that instruction's meaning; around it the step only takes the turn off the agenda, a host's wait
excepted, which stays (the model's, log entry 3). -/
def Obligations.StepRunsDecodedCommand : Prop :=
  ∀ (s : State) (i : Instr), runState s = .busy → s.phase = .pDecode → decode s.cmd = .ok i →
    i.wellFormed = true →
    (s.agenda = [] → step s = exec i s) ∧
    (∀ rest, s.agenda = .command :: rest → step s = exec i { s with agenda := rest }) ∧
    (∀ rest, s.agenda = .await :: rest → step s = exec i s)

/-- R13, R40: from `IDLE` or `DONE`, the host writes an instruction's word to `CMD`; that stores the word,
sets `STATE` to `BUSY` and `CAUSE` to 0, and the sequencer's turn that follows is the instruction's
meaning. The two turns stand on the agenda, and the word is the low 32 bits written (the model's, log
entries 3 and 18). -/
def Obligations.WrittenCommandRunsNext : Prop :=
  ∀ (s : State) (i : Instr) (rest : List Turn), runState s = .idle ∨ runState s = .done →
    s.held = [] →
    s.agenda = .host (.access (.write .cmd ((encode i).setWidth 64))) :: .command :: rest →
    ∃ u : State, step s = .next u ∧ u.cmd = encode i ∧ u.status.extractLsb' 0 2 = 1 ∧
      u.status.extractLsb' 4 4 = 0 ∧ u.ops = s.ops ∧ u.len = s.len ∧ u.buf = s.buf ∧
      u.res0 = s.res0 ∧ u.res1 = s.res1 ∧ u.finfo = s.finfo ∧
      step u = exec i { u with agenda := rest }

/-- R93, R95: an illegal word in `CMD` enters the fault state at decode, with code 2 and `FINFO` the word
zero-extended, whatever the operand registers and the buffer hold. With no turn left the sequencer moves
(the model's, log entry 3). -/
def Obligations.IllegalWordFaultsAtDecode : Prop :=
  ∀ s : State, runState s = .busy → s.phase = .pDecode → (∀ i, decode s.cmd ≠ .ok i) →
    s.agenda = [] → ∃ t, step s = .next t ∧ FaultEntry s t .illegalCmd (s.cmd.setWidth 64)

/-- R95: what `raise F(info)` writes and what it keeps. -/
def Obligations.FaultEntryWrites : Prop :=
  ∀ (s : State) (c : Cause) (info : Word), FaultEntry s (raiseFault s c info) c info

/-! ### Primitive functions and commands -/

/-- R49: `Rotate`: the two cases of the rule, and each bit of the result. -/
def Obligations.RotateIsCircular : Prop :=
  ∀ (v : Word) (s : BitVec 6),
    (s = 0 → rotate v s = v) ∧
    (s ≠ 0 → rotate v s = (v >>> s.toNat) ||| (v <<< (64 - s.toNat))) ∧
    (∀ i, i < 64 → (rotate v s).getLsbD i = v.getLsbD ((i + s.toNat) % 64))

/-- R50: `ROTR #sh` rotates `OP[0]` right by `sh` and changes nothing else, for every `sh`; rotating on
by `64 - sh` gives `OP[0]` back. -/
def Obligations.RotrRotatesOperand : Prop :=
  ∀ (sh : BitVec 6) (s : State), ∃ t, exec (.rotr sh) s = .next t ∧ OneResult s t t.res0 ∧
    (∀ i, i < 64 → t.res0.getLsbD i = s.ops.o0.getLsbD ((i + sh.toNat) % 64)) ∧
    rotate t.res0 (0 - sh) = s.ops.o0

/-- R51: `ByteSwap_n` reverses the order of the bytes, is the identity for one byte, and undoes itself. -/
def Obligations.ByteSwapReversesAndUndoes : Prop :=
  ∀ n ∈ [1, 2, 4, 8], ∀ v : Word, v.toNat < 2 ^ (8 * n) →
    (byteSwapN n v).toNat < 2 ^ (8 * n) ∧
    (∀ j, j < n → (byteSwapN n v).extractLsb' (8 * j) 8 = v.extractLsb' (8 * (n - 1 - j)) 8) ∧
    (n = 1 → byteSwapN n v = v) ∧ byteSwapN n (byteSwapN n v) = v

/-- R52: `BSWAP.x` reverses the low `n` bytes of `OP[0]`, ignores the bits above them, zero-extends, and
changes nothing else. -/
def Obligations.BswapSwapsOperand : Prop :=
  ∀ s : State, ∀ p ∈ [(Instr.bswapB, 1), (.bswapH, 2), (.bswapW, 4), (.bswapD, 8)],
    ∃ t, exec p.1 s = .next t ∧ OneResult s t t.res0 ∧
      (∀ j, j < p.2 →
        t.res0.extractLsb' (8 * j) 8 = s.ops.o0.extractLsb' (8 * (p.2 - 1 - j)) 8) ∧
      (∀ j, p.2 ≤ j → j < 8 → t.res0.extractLsb' (8 * j) 8 = 0)

/-- R26, R54: `FETCH.x` in range reads the `n` bytes from `OP[0]` on, at any alignment, the lowest offset
least significant, zero-extends, and changes nothing else. -/
def Obligations.FetchReadsLittleEndian : Prop :=
  ∀ s : State, ∀ p ∈ [(Instr.fetchB, 1), (.fetchH, 2), (.fetchW, 4), (.fetchD, 8)],
    s.ops.o0.toNat + p.2 ≤ s.len.toNat → BackedAt s.buf s.ops.o0.toNat p.2 →
    ∃ t, exec p.1 s = .next t ∧ OneResult s t t.res0 ∧
      t.res0.toNat = bytesValue s.buf s.ops.o0.toNat p.2

/-- R27, R54, R92: `FETCH.x` out of range, the sum taken without wraparound, raises `BufRange` with
`FINFO = OP[0]` and reads no byte: the buffer's contents do not matter. -/
def Obligations.FetchOutOfRangeFaults : Prop :=
  ∀ s : State, ∀ p ∈ [(Instr.fetchB, 1), (.fetchH, 2), (.fetchW, 4), (.fetchD, 8)],
    s.len.toNat < s.ops.o0.toNat + p.2 →
    ∃ t, exec p.1 s = .next t ∧ FaultEntry s t .bufRange s.ops.o0

/-- R55, R56: `SHMIX`: the low 17 bits are mixed with the top 17, bits 63 to 17 pass. -/
def Obligations.ShmixMixesTopBits : Prop :=
  ∀ s : State, ∃ t, exec .shmix s = .next t ∧ OneResult s t t.res0 ∧
    t.res0.extractLsb' 0 17 = s.ops.o0.extractLsb' 0 17 ^^^ s.ops.o0.extractLsb' 47 17 ∧
    t.res0.extractLsb' 17 47 = s.ops.o0.extractLsb' 17 47

/-- R56: `ShiftMix` is its own inverse, and values below 2^47 are fixed points. -/
def Obligations.ShiftMixUndoesItself : Prop :=
  ∀ v : Word, shiftMix (shiftMix v) = v ∧ (v.toNat < 2 ^ 47 → shiftMix v = v)

/-- R57, R58, R59, R60: `H128` and `HL16` give the two-round compression of `OP[0]`, `OP[1]`, computed
here on natural numbers modulo 2^64 with the multiplier `KMUL`, and agree on every input. -/
def Obligations.CompressorCommands : Prop :=
  ∀ s : State,
    let k := 0x9ddfea08eb382d69
    let u := s.ops.o0.toNat
    let v := s.ops.o1.toNat
    let a := ((u ^^^ v) * k) % 2 ^ 64
    let a' := a ^^^ (a >>> 47)
    let b := ((v ^^^ a') * k) % 2 ^ 64
    let b' := b ^^^ (b >>> 47)
    (∃ t, exec .h128 s = .next t ∧ OneResult s t (BitVec.ofNat 64 (b' * k))) ∧
    (∃ t, exec .hl16 s = .next t ∧ OneResult s t (BitVec.ofNat 64 (b' * k)))

/-- R61, R62: `HL16M`, the same shape with the multiplier in `OP[2]`. -/
def Obligations.MultiplierCompressorCommand : Prop :=
  ∀ s : State,
    let k := s.ops.o2.toNat
    let u := s.ops.o0.toNat
    let v := s.ops.o1.toNat
    let a := ((u ^^^ v) * k) % 2 ^ 64
    let a' := a ^^^ (a >>> 47)
    let b := ((v ^^^ a') * k) % 2 ^ 64
    let b' := b ^^^ (b >>> 47)
    ∃ t, exec .hl16m s = .next t ∧ OneResult s t (BitVec.ofNat 64 (b' * k))

/-- R57, R59, R61, R62: the laws of the compressors: `KMUL` makes the three-argument form the two-argument
one; equal halves give `ShiftMix(u * KMUL) * KMUL`, which is 0 only for 0; multipliers 0 and 1. -/
def Obligations.CompressorLaws : Prop :=
  ∀ u v : Word,
    hash128to64 ⟨u, v⟩ = hashLen16Mul u v kMul ∧ hashLen16 u v = hash128to64 ⟨u, v⟩ ∧
    hash128to64 ⟨u, u⟩ = shiftMix (u * kMul) * kMul ∧ (hash128to64 ⟨u, u⟩ = 0 ↔ u = 0) ∧
    hashLen16Mul u v 0 = 0 ∧ hashLen16Mul u v 1 = shiftMix (v ^^^ shiftMix (u ^^^ v))

/-- R63, R64: `WEAK32` in closed form, both results written. -/
def Obligations.Weak32ClosedForm : Prop :=
  ∀ s : State,
    let w := s.ops.o0
    let x := s.ops.o1
    let y := s.ops.o2
    let z := s.ops.o3
    let a := s.ops.o4
    let b := s.ops.o5
    ∃ t, exec .weak32 s = .next t ∧
      TwoResults s t ⟨a + w + x + y + z, rotate (b + a + w + z) 21 + rotate (a + w + x + y) 44 + a + w⟩

/-- R65, R66: `WEAK32B` in range: the closed form on the four words from `OP[0]` on, seeds `OP[4]` and
`OP[5]`. -/
def Obligations.Weak32bReadsFourWords : Prop :=
  ∀ s : State,
    let off := s.ops.o0.toNat
    let w := wordAt s.buf off 8
    let x := wordAt s.buf (off + 8) 8
    let y := wordAt s.buf (off + 16) 8
    let z := wordAt s.buf (off + 24) 8
    let a := s.ops.o4
    let b := s.ops.o5
    off + 32 ≤ s.len.toNat → BackedAt s.buf off 32 →
    ∃ t, exec .weak32b s = .next t ∧
      TwoResults s t ⟨a + w + x + y + z, rotate (b + a + w + z) 21 + rotate (a + w + x + y) 44 + a + w⟩

/-- R65, R66, R92: `WEAK32B` out of range raises `BufRange` at the lowest of its four offsets whose read is
out of range, the reads before it having found their bytes; that offset fits in 64 bits. -/
def Obligations.Weak32bFaultsAtLowestRead : Prop :=
  ∀ (s : State) (k : Nat),
    let off := s.ops.o0.toNat
    k < 4 → (∀ j, j < k → off + 8 * j + 8 ≤ s.len.toNat) → s.len.toNat < off + 8 * k + 8 →
    BackedAt s.buf off (8 * k) →
    off + 8 * k < 2 ^ 64 ∧
    ∃ t, exec .weak32b s = .next t ∧ FaultEntry s t .bufRange (BitVec.ofNat 64 (off + 8 * k))

/-! ### Digests -/

/-- R68, R70: `HASH` of the empty buffer is `K2`, whatever the host has bound. -/
def Obligations.HashOfEmptyBuffer : Prop :=
  ∀ s : State, s.len = 0 → ∃ t, exec .hash s = .next t ∧ DigestResult s t 0x9ae16a3b2f90404f

/-- R71: `HASH` of 1 to 3 bytes; the 32-bit width of `y` and `z` changes nothing (R6). -/
def Obligations.HashOfOneToThreeBytes : Prop :=
  ∀ s : State,
    let n := s.len.toNat
    let a := wordAt s.buf 0 1
    let b := wordAt s.buf (n / 2) 1
    let c := wordAt s.buf (n - 1) 1
    1 ≤ n → n ≤ 3 → Backed s →
    ∃ t, exec .hash s = .next t ∧
      DigestResult s t (shiftMix (((a + b * 256) * k2) ^^^ ((s.len + c * 4) * k0)) * k2)

/-- R72: `HASH` of 4 to 7 bytes. -/
def Obligations.HashOfFourToSevenBytes : Prop :=
  ∀ s : State,
    let n := s.len.toNat
    4 ≤ n → n ≤ 7 → Backed s →
    ∃ t, exec .hash s = .next t ∧
      DigestResult s t
        (hashLen16Mul (s.len + wordAt s.buf 0 4 * 8) (wordAt s.buf (n - 4) 4) (k2 + 2 * s.len))

/-- R73: `HASH` of 8 to 16 bytes. -/
def Obligations.HashOfEightToSixteenBytes : Prop :=
  ∀ s : State,
    let n := s.len.toNat
    let mul := k2 + 2 * s.len
    let a := wordAt s.buf 0 8 + k2
    let b := wordAt s.buf (n - 8) 8
    8 ≤ n → n ≤ 16 → Backed s →
    ∃ t, exec .hash s = .next t ∧
      DigestResult s t (hashLen16Mul (rotate b 37 * mul + a) ((rotate a 25 + b) * mul) mul)

/-- R74: `HASH` of 17 to 32 bytes. -/
def Obligations.HashOfSeventeenToThirtyTwoBytes : Prop :=
  ∀ s : State,
    let n := s.len.toNat
    let mul := k2 + 2 * s.len
    let a := wordAt s.buf 0 8 * k1
    let b := wordAt s.buf 8 8
    let c := wordAt s.buf (n - 8) 8 * mul
    let d := wordAt s.buf (n - 16) 8 * k2
    17 ≤ n → n ≤ 32 → Backed s →
    ∃ t, exec .hash s = .next t ∧
      DigestResult s t
        (hashLen16Mul (rotate (a + b) 43 + rotate c 30 + d) (a + rotate (b + k2) 18 + c) mul)

/-- R76: `HASH` of 33 to 64 bytes, with three byte swaps (C2). -/
def Obligations.HashOfThirtyThreeToSixtyFourBytes : Prop :=
  ∀ s : State,
    let n := s.len.toNat
    let mul := k2 + 2 * s.len
    let a := wordAt s.buf 0 8 * k2
    let b := wordAt s.buf 8 8
    let c := wordAt s.buf (n - 24) 8
    let d := wordAt s.buf (n - 32) 8
    let e := wordAt s.buf 16 8 * k2
    let f := wordAt s.buf 24 8 * 9
    let g := wordAt s.buf (n - 8) 8
    let h := wordAt s.buf (n - 16) 8 * mul
    let u := rotate (a + g) 43 + (rotate b 30 + c) * 9
    let v := ((a + g) ^^^ d) + f + 1
    let w := byteSwap ((u + v) * mul) + h
    let x := rotate (e + f) 42 + c
    let y := (byteSwap ((v + w) * mul) + g) * mul
    let z := e + f + c
    let a' := byteSwap ((x + z) * mul + y) + b
    let b' := shiftMix ((z + a') * mul + d + h) * mul
    33 ≤ n → n ≤ 64 → Backed s → ∃ t, exec .hash s = .next t ∧ DigestResult s t (b' + x)

/-- R79, R80: what priming leaves in the hidden registers. -/
def Obligations.PrimingFromTheLastBytes : Prop :=
  ∀ s : State,
    let n := s.len.toNat
    let w := fun off => wordAt s.buf off 8
    let x := w (n - 40)
    let y := w (n - 16) + w (n - 56)
    let z := hashLen16 (w (n - 48) + s.len) (w (n - 24))
    65 ≤ n → Backed s →
    ∃ h, primePipeline truncRule s.buf s.len = .ok h ∧
      h.x = x * k1 + w 0 ∧ h.y = y ∧ h.z = z ∧
      h.v = weakHash (w (n - 64)) (w (n - 56)) (w (n - 48)) (w (n - 40)) s.len z ∧
      h.wp = weakHash (w (n - 32)) (w (n - 24)) (w (n - 16)) (w (n - 8)) (y + k1) x

/-- R82: what one block step makes of the hidden registers, in the order of its lines. -/
def Obligations.BlockStepUpdates : Prop :=
  ∀ (s : State) (h : Hidden),
    let p := h.pos.toNat
    let w := fun off => wordAt s.buf off 8
    let x := (rotate (h.x + h.y + h.v.first + w (p + 8)) 37 * k1) ^^^ h.wp.second
    let y := rotate (h.y + h.v.second + w (p + 48)) 42 * k1 + h.v.first + w (p + 40)
    let z := rotate (h.z + h.wp.first) 33 * k1
    p + 64 ≤ s.len.toNat → Backed s →
    blockStep s.buf s.len h = .ok
      { x := z, y := y, z := x,
        v := weakHash (w p) (w (p + 8)) (w (p + 16)) (w (p + 24)) (h.v.second * k1) (x + h.wp.first),
        wp := weakHash (w (p + 32)) (w (p + 40)) (w (p + 48)) (w (p + 56)) (z + h.wp.second)
          (y + w (p + 16)),
        pos := h.pos + 64, rem := h.rem - 64 }

/-- R78, R81, R83, R85: `HASH` of more than 64 bytes primes, makes exactly `NB = (LEN - 1) / 64` block
steps with `POS = 64 k` and `REM = 64 (NB - k)` before step `k`, and ends with the final mix. -/
def Obligations.HashStreamsWholeBlocks : Prop :=
  ∀ s : State,
    let n := s.len.toNat
    let nb := (n - 1) / 64
    64 < n → Backed s →
    ∃ (chain : Nat → Hidden) (t : State),
      primePipeline truncRule s.buf s.len = .ok (chain 0) ∧
      (∀ k, k < nb → blockStep s.buf s.len (chain k) = .ok (chain (k + 1)) ∧
        (chain k).pos.toNat = 64 * k ∧ (chain k).rem.toNat = 64 * (nb - k)) ∧
      (chain nb).rem = 0 ∧ (chain nb).pos.toNat = 64 * nb ∧
      exec .hash s = .next t ∧
      DigestResult s t
        (hashLen16
          (hashLen16 (chain nb).v.first (chain nb).wp.first + shiftMix (chain nb).y * k1 + (chain nb).z)
          (hashLen16 (chain nb).v.second (chain nb).wp.second + (chain nb).x))

/-- R87, R88, R89: on every backed buffer the seeded commands complete, with the seed mix of the digest
`HASH` gives: seed `K2` and `OP[1]` for `HASHS`, `OP[0]` and `OP[1]` for `HASHSS`. -/
def Obligations.SeededDigests : Prop :=
  ∀ s : State, Backed s →
    ∃ d t u v, exec .hash s = .next t ∧ DigestResult s t d ∧
      exec .hashs s = .next u ∧
      DigestResult s u (hash128to64 ⟨d - 0x9ae16a3b2f90404f, s.ops.o1⟩) ∧
      exec .hashss s = .next v ∧ DigestResult s v (hash128to64 ⟨d - s.ops.o0, s.ops.o1⟩)

/-- R90: the result of `HASHS` equals that of `HASHSS` with `OP[0] = K2`, for every state, and nothing else
differs but the `OP[0]` set for it. -/
def Obligations.SeedCompositionLaw : Prop :=
  ∀ s : State,
    (∀ t, exec .hashs s = .next t → exec .hashss { s with ops := { s.ops with o0 := k2 } } =
      .next { t with ops := { s.ops with o0 := k2 } }) ∧
    (∀ f, exec .hashs s = .fault f →
      exec .hashss { s with ops := { s.ops with o0 := k2 } } = .fault f)

/-- R34, R77, R84: `HASH`, `HASHS` and `HASHSS` never raise `BufRange`, for every `LEN` and every buffer:
they end `DONE`, or stop at an offset below `LEN` that the host has not backed; and a command that enters
the fault state is a `FETCH` or `WEAK32B`. The stop at an unbacked offset, by the fault `unbackedByte`, is
the model's choice (U6: stuck or fault; log entry 7), not a rule of the spec. -/
def Obligations.DigestsStayInRange : Prop :=
  ∀ (s : State) (i : Instr),
    (isDigest i = true →
      (∃ t, exec i s = .next t ∧ EndsDone s t) ∨
      (∃ off, off < s.len.toNat ∧ byteAt s.buf off = none ∧ exec i s = .fault (.unbackedByte off))) ∧
    (∀ t, exec i s = .next t → t.status.extractLsb' 0 2 = 3 → canLeaveRange i = true)

/-- R81, D30: the two truncation rules, what priming puts in `POS` and `REM`, and that the model runs the
default `REF`. -/
def Obligations.TruncationRules : Prop :=
  truncRule = .ref ∧
  (∀ (rule : TruncRule) (m : Memory) (len : Word) (h : Hidden),
    primePipeline rule m len = .ok h → h.pos = 0 ∧ h.rem = truncateLen rule len) ∧
  ∀ len : Word, 65 ≤ len.toNat →
    (truncateLen .ref len).toNat = 64 * ((len.toNat - 1) / 64) ∧
    (truncateLen .literal len).toNat = 64 * (len.toNat / 64) ∧
    1 ≤ (len.toNat - 1) / 64 ∧
    (truncateLen .ref len = truncateLen .literal len ↔ len.toNat % 64 ≠ 0)

/-! ### The buffer -/

/-- R27: when a read is in range; one that is not reads no byte and raises `BufRange`; with `LEN = 0` every
read is out of range. -/
def Obligations.RangeCheckIsUnbounded : Prop :=
  ∀ (m : Memory) (len : Word) (off n : Nat),
    (off + n ≤ len.toNat ↔ n ≤ len.toNat ∧ off ≤ len.toNat - n) ∧
    (memRead m len off n = .error (.outOfRange off) ↔ len.toNat < off + n) ∧
    (len = 0 → 1 ≤ n → memRead m len off n = .error (.outOfRange off)) ∧
    (∀ (s : State) (done : Word → State), len.toNat < off + n →
      settle s (memRead m len off n) done =
        .next (raiseFault s .bufRange (BitVec.ofNat 64 off)))

/-- R28: reads of two widths at the same bytes agree. -/
def Obligations.MixedWidthReadsAgree : Prop :=
  ∀ (m : Memory) (len : Word) (off : Nat) (v : Word), ∀ a ∈ [1, 2, 4, 8], ∀ n ∈ [1, 2, 4, 8],
    a < n → memRead m len off n = .ok v →
    (∃ u, memRead m len off a = .ok u ∧ u.toNat = v.toNat % 2 ^ (8 * a)) ∧
    (n - a ∈ [1, 2, 4, 8] →
      ∃ u, memRead m len (off + a) (n - a) = .ok u ∧ u.toNat = v.toNat / 2 ^ (8 * a))

/-- R32, R110: a step changes the buffer only if it is the host's own move of the buffer (whose turn it is,
is the model's, log entry 3). -/
def Obligations.OnlyTheHostChangesTheBuffer : Prop :=
  ∀ s t : State, step s = .next t →
    t.buf = s.buf ∨
    ∃ rest, (∃ bytes, s.agenda = .host (.bind bytes) :: rest) ∨
      (∃ off b, s.agenda = .host (.poke off b) :: rest) ∨ s.agenda = .host .release :: rest

/-- R33, R110, U5: a host move of the buffer while a command runs is refused, by name (the model's choice,
log entry 8). -/
def Obligations.BufferMoveRefusedWhileBusy : Prop :=
  ∀ (s : State) (m : HostMove) (rest : List Turn), runState s = .busy →
    s.agenda = .host m :: rest →
    ((∃ bytes, m = .bind bytes) ∨ (∃ off b, m = .poke off b) ∨ m = .release) →
    step s = .refused .bufferMoveWhileBusy

/-! ### All commands -/

/-- R1, R44: the outcome of a command depends only on the operand registers its row of R44 names, on `LEN`
and on the buffer bytes below `LEN` (on these two only if it reads the buffer). -/
def Obligations.OutcomeDependsOnInputsOnly : Prop :=
  ∀ (i : Instr) (s t s' : State),
    (∀ k ∈ readsOps i, readOp s.ops k = readOp t.ops k) →
    (readsBuffer i = true → s.len = t.len ∧
      ∀ off, off < s.len.toNat → byteAt s.buf off = byteAt t.buf off) →
    exec i s = .next s' →
    ∃ t', exec i t = .next t' ∧
      ((runState s' = .done ∧ runState t' = .done ∧ t'.res0 = s'.res0 ∧
        (writesPair i = true → t'.res1 = s'.res1)) ∨
       (runState s' = .fault ∧ runState t' = .fault ∧ t'.finfo = s'.finfo ∧
        statusCause t'.status = statusCause s'.status))

/-- R10, R12, R32, R67: the frame of every command: operand registers, `LEN`, `CMD` and every byte of the
buffer are unchanged, and so is the host's side. -/
def Obligations.CommandsKeepTheirInputs : Prop :=
  ∀ (i : Instr) (s t : State), exec i s = .next t → KeepsInputs s t

/-- R67, R21: a command ends `DONE` with `FINFO` unchanged, or in a fault with code 1; the sequencer is
idle after it. -/
def Obligations.CommandsEndDoneOrFault : Prop :=
  ∀ (i : Instr) (s t : State), exec i s = .next t →
    t.phase = .pIdle ∧ (EndsDone s t ∨ ∃ off, FaultEntry s t .bufRange off)

/-- R11, R109: a command that ends `DONE` changes `RES[1]` only if it is `WEAK32` or `WEAK32B`. -/
def Obligations.OnlyPairCommandsWriteSecondResult : Prop :=
  ∀ (i : Instr) (s t : State), exec i s = .next t → t.status.extractLsb' 0 2 = 2 →
    i ≠ .weak32 → i ≠ .weak32b → t.res1 = s.res1

/-- R67, R16: the hidden registers are changed by no command that ends `DONE` except a digest command with
`LEN > 64` (the model's reading, log entry 19). -/
def Obligations.HiddenRegistersOnlyInPipeline : Prop :=
  ∀ (i : Instr) (s t : State), exec i s = .next t → t.status.extractLsb' 0 2 = 2 →
    (isDigest i = false ∨ s.len.toNat ≤ 64) → t.hidden = s.hidden

/-! ### The host's side -/

/-- R18: the register numbers; what a read of each register returns, in every state, `FAULT` included
(R96); what a write of each register does in `IDLE` and `DONE`, the start of a command by a write to `CMD`
included (R13, R40), and that it does nothing in `FAULT` (R96). That a 32-bit register is read zero-extended
and that a write to `CMD` takes the low 32 bits is the model's (log entry 18). -/
def Obligations.RegisterAccessTable : Prop :=
  (regNumber .cmd = 0 ∧ regNumber .status = 1 ∧ regNumber .len = 2 ∧ regNumber .finfo = 3 ∧
    (∀ i : Fin 6, regNumber (.op i) = 4 + i.val) ∧ (∀ i : Fin 2, regNumber (.res i) = 10 + i.val)) ∧
  (∀ n r, regOfNumber n = some r ↔ regNumber r = n) ∧ (∀ n, 11 < n → regOfNumber n = none) ∧
  (∀ s : State,
    readReg s .cmd = s.cmd.setWidth 64 ∧ readReg s .len = s.len ∧ readReg s .finfo = s.finfo ∧
    readReg s (.op 0) = s.ops.o0 ∧ readReg s (.op 1) = s.ops.o1 ∧ readReg s (.op 2) = s.ops.o2 ∧
    readReg s (.op 3) = s.ops.o3 ∧ readReg s (.op 4) = s.ops.o4 ∧ readReg s (.op 5) = s.ops.o5 ∧
    readReg s (.res 0) = s.res0 ∧ readReg s (.res 1) = s.res1 ∧
    (readReg s .status).extractLsb' 0 2 = s.status.extractLsb' 0 2 ∧
    (readReg s .status).extractLsb' 2 2 = 0 ∧
    (readReg s .status).extractLsb' 4 4 = s.status.extractLsb' 4 4 ∧
    (readReg s .status).extractLsb' 8 56 = 0) ∧
  (∀ (s : State) (v : Word), runState s = .idle ∨ runState s = .done →
    (∃ t, writeReg s .cmd v = t ∧ t.cmd = v.setWidth 32 ∧ t.status.extractLsb' 0 2 = 1 ∧
      t.status.extractLsb' 4 4 = 0 ∧ t.phase = .pDecode ∧
      { t with cmd := s.cmd, status := s.status, phase := s.phase } = s) ∧
    writeReg s .len v = { s with len := v } ∧
    (∀ i, ∃ t, writeReg s (.op i) v = t ∧ { t with ops := s.ops } = s ∧
      ∀ j, readReg t (.op j) = if j = i then v else readReg s (.op j)) ∧
    writeReg s .status v = s ∧ writeReg s .finfo v = s ∧ (∀ i, writeReg s (.res i) v = s)) ∧
  (∀ (s : State) (r : HostReg) (v : Word), runState s = .fault → writeReg s r v = s)

/-- R19: while a command runs a read of `STATUS` completes and shows `BUSY`, and every other access is held
with no effect (the list of held accesses and that of replies are the model's, log entries 6 and 15). -/
def Obligations.BusyHoldsAccesses : Prop :=
  ∀ (s : State) (a : Access) (rest : List Turn), runState s = .busy →
    s.agenda = .host (.access a) :: rest →
    (a = .read .status → ∃ w, w.extractLsb' 0 2 = 1 ∧
      step s = .next { s with agenda := rest, replies := s.replies ++ [(.status, w)] }) ∧
    (a ≠ .read .status → step s = .next { s with agenda := rest, held := s.held ++ [a] })

/-- R19, R96: when no command runs, the oldest held access completes against the state the command left:
a read returns the register, a write takes effect unless the state is `FAULT`. That the oldest completes
first, one a step, is the model's (log entry 6), and so are the replies list (log entry 15) and that `CMD`
takes the low 32 bits of the number written (log entry 18). -/
def Obligations.HeldAccessCompletes : Prop :=
  ∀ (s : State) (a : Access) (rest : List Access), runState s ≠ .busy → s.held = a :: rest →
    ∃ t, step s = .next t ∧ t.held = rest ∧ t.agenda = s.agenda ∧
      (∀ r, a = .read r →
        t = { s with held := rest, replies := s.replies ++ [(r, readReg s r)] }) ∧
      (∀ r v, a = .write r v → runState s = .fault → t = { s with held := rest }) ∧
      (∀ v, a = .write .len v → runState s ≠ .fault → t = { s with held := rest, len := v }) ∧
      (∀ i v, a = .write (.op i) v → runState s ≠ .fault →
        t = { s with held := rest, ops := writeOp s.ops i v }) ∧
      (∀ v, a = .write .cmd v → runState s ≠ .fault →
        t.cmd = v.setWidth 32 ∧ runState t = .busy ∧ t.phase = .pDecode)

/-- R96: in `FAULT` a read of any register completes, and a write of any register is ignored: it stores
nothing and starts no command (the turn and the replies are the model's, log entries 3 and 15). -/
def Obligations.WritesIgnoredInFault : Prop :=
  ∀ (s : State) (r : HostReg) (v : Word) (rest : List Turn), runState s = .fault → s.held = [] →
    (s.agenda = .host (.access (.write r v)) :: rest → step s = .next { s with agenda := rest }) ∧
    (s.agenda = .host (.access (.read r)) :: rest →
      step s = .next { s with agenda := rest, replies := s.replies ++ [(r, readReg s r)] })

/-- R96, R97: `FAULT` is left only by reset: any other step keeps `STATUS` and every register the host can
read (the turn is the model's, log entry 3). -/
def Obligations.FaultIsSticky : Prop :=
  ∀ s t : State, RunInv s → runState s = .fault → step s = .next t →
    (t.status = s.status ∧ ∀ r, readReg t r = readReg s r) ∨
    (runState t = .idle ∧ ∃ rest, s.agenda = .host .reset :: rest)

/-- R10, R12: a step changes an operand register or `LEN` only when the host writes it, or by reset; no
command does (the turn is the model's, log entry 3). -/
def Obligations.OnlyTheHostWritesOperands : Prop :=
  ∀ s t : State, step s = .next t →
    (∃ rest, s.agenda = .host .reset :: rest) ∨
    ((∀ i, readOp t.ops i ≠ readOp s.ops i →
        (∃ rest, s.agenda = .host (.access (.write (.op i) (readOp t.ops i))) :: rest) ∨
        (∃ rest, s.held = .write (.op i) (readOp t.ops i) :: rest)) ∧
      (t.len ≠ s.len →
        (∃ rest, s.agenda = .host (.access (.write .len t.len)) :: rest) ∨
        (∃ rest, s.held = .write .len t.len :: rest)))

/-- R14: the changes of `STATE`, and no others: `IDLE` or `DONE` to `BUSY` when a word is written to `CMD`,
`BUSY` to `DONE` or `FAULT` by a turn of the sequencer that ends the command, any state to `IDLE` by reset.
Whose turn a step is, is the model's (log entry 3), and so is that `CMD` takes the low 32 bits of the number
written (log entry 18). -/
def Obligations.StateChangesAsListed : Prop :=
  ∀ s t : State, RunInv s → step s = .next t → runState t ≠ runState s →
    ((runState s = .idle ∨ runState s = .done) ∧ runState t = .busy ∧ t.phase = .pDecode ∧
      ((∃ v rest, s.agenda = .host (.access (.write .cmd v)) :: rest ∧ t.cmd = v.setWidth 32) ∨
       (∃ v rest, s.held = .write .cmd v :: rest ∧ t.cmd = v.setWidth 32))) ∨
    (runState s = .busy ∧ (runState t = .done ∨ runState t = .fault) ∧ t.phase = .pIdle ∧
      (s.agenda = [] ∨
       ∃ rest, s.agenda = .command :: rest ∨ s.agenda = .phase :: rest ∨ s.agenda = .await :: rest)) ∨
    (runState t = .idle ∧ ∃ rest, s.agenda = .host .reset :: rest)

/-- R105, R106: the reset event in any state, also while a command runs or in `FAULT`. That held accesses
and replies stay is the model's reading (log entry 21). -/
def Obligations.ResetFromAnyState : Prop :=
  ∀ (s : State) (rest : List Turn), s.agenda = .host .reset :: rest →
    (runState s = .busy ∨ s.held = []) →
    ∃ t, step s = .next t ∧ t.status = 0 ∧ t.cmd = 0 ∧ t.len = 0 ∧ t.finfo = 0 ∧ t.phase = .pIdle ∧
      (∀ off, byteAt t.buf off = byteAt s.buf off) ∧ t.held = s.held ∧ t.replies = s.replies ∧
      t.agenda = rest

/-- R106: an access held across a reset completes against the reset state. That it does so in the step after
the reset is the model's (log entries 3 and 6), and so are that reset keeps the held accesses and the replies
(log entry 21), the replies list (log entry 15), and that `CMD` takes the low 32 bits of the number written
(log entry 18). -/
def Obligations.HeldAccessAcrossReset : Prop :=
  ∀ (s : State) (a : Access) (hs : List Access) (rest : List Turn), runState s = .busy →
    s.held = a :: hs → s.agenda = .host .reset :: rest →
    ∃ u t, step s = .next u ∧ step u = .next t ∧ t.held = hs ∧ u.len = 0 ∧ u.cmd = 0 ∧
      (∀ r, a = .read r → t.replies = s.replies ++ [(r, readReg u r)] ∧ runState t = .idle) ∧
      (∀ v, a = .write .len v → t.len = v ∧ t.cmd = 0 ∧ runState t = .idle) ∧
      (∀ i v, a = .write (.op i) v → readOp t.ops i = v ∧ t.len = 0 ∧ runState t = .idle) ∧
      (∀ v, a = .write .cmd v →
        t.cmd = v.setWidth 32 ∧ t.len = 0 ∧ runState t = .busy ∧ t.phase = .pDecode)

/-- R48: the script line `BUF` binds the bytes, offset 0 first, and sets `LEN` to their count, after which
every offset below `LEN` is backed. The three turns, the first a wait that is over at once, are the model's
form of the line (log entries 3 and 25). -/
def Obligations.BufLineBindsAndSetsLength : Prop :=
  ∀ (s : State) (bytes : List Byte) (rest : List Turn), runState s = .idle ∨ runState s = .done →
    s.held = [] → bytes.length < 2 ^ 64 → s.agenda = lineTurns (.buf bytes) ++ rest →
    ∃ t, runSteps 3 s = .next t ∧ t.len.toNat = bytes.length ∧ t.agenda = rest ∧
      (∀ k, k < bytes.length → byteAt t.buf k = bytes[k]?) ∧ Backed t

/-- R9, R22: the constants, and the state after reset where R22 gives a value. -/
def Obligations.ResetStateValues : Prop :=
  k0 = 0xc3a5c85c97cb3127 ∧ k1 = 0xb492b66fbe98f273 ∧ k2 = 0x9ae16a3b2f90404f ∧
  kMul = 0x9ddfea08eb382d69 ∧
  State.reset.status = 0 ∧ runState State.reset = .idle ∧ statusCause State.reset.status = 0 ∧
  State.reset.cmd = 0 ∧ State.reset.len = 0 ∧ State.reset.finfo = 0 ∧ State.reset.phase = .pIdle

/-- R102: a step of one instance leaves every other as it was (which instance moves is an argument, log
entry 12). -/
def Obligations.InstancesAreIsolated : Prop :=
  ∀ (k : Nat) (sys sys' : System), systemStep k sys = .next sys' →
    sys'.length = sys.length ∧ ∀ j, j ≠ k → sys'[j]? = sys[j]?

/-! ### Runs -/

/-- R14, R40, R86, R91, R95: every step keeps the invariant: the buffer's form, the reserved bits of
`STATUS`, `CAUSE` 0 outside `FAULT` and 1 or 2 in it with the faulting word in `CMD`, a command running
exactly when the sequencer is inside one, and what holds at each phase, the block loop included. The
buffer's form is the model's (log entry 7). -/
def Obligations.InvariantKeptByEveryStep : Prop :=
  ∀ s t : State, RunInv s → step s = .next t → RunInv t

/-- The invariant holds after reset. -/
def Obligations.InvariantAtReset : Prop := RunInv State.reset

/-- R86: a command taken phase by phase, one step per block, ends with the outcome of the whole command in
one step: the next state, or the stop at an unbacked byte. -/
def Obligations.PhasesAgreeWithWholeCommand : Prop :=
  ∀ (s : State) (i : Instr), s.phase = .pDecode → decode s.cmd = .ok i →
    runPhases ((s.len.toNat - 1) / 64 + 4) s = exec i s

/-- R112, R83, R19: a running command on a backed buffer ends within `NB + 4` phases, `DONE` or `FAULT`,
with its inputs unchanged. R48: a script line that writes a word to `CMD` waits until `STATE` is not `BUSY`,
whatever `STATE` is when the line begins: a command that then runs ends first, the line's own command after
it, and unless one of them faulted `CMD` holds the line's word. The turns of the line are the model's (log
entries 3 and 25). -/
def Obligations.RunningCommandEnds : Prop :=
  (∀ s : State, RunInv s → Backed s → runState s = .busy →
    ∃ n t, n ≤ (s.len.toNat - 1) / 64 + 4 ∧ runPhases n s = .next t ∧
      (runState t = .done ∨ runState t = .fault) ∧ KeepsInputs s t) ∧
  (∀ (s : State) (line : ScriptLine) (c : CmdWord) (rest : List Turn), RunInv s → Backed s →
    s.held = [] → (line = .rawCmd c ∨ ∃ i, line = .command i ∧ c = encode i) →
    s.agenda = lineTurns line ++ rest →
    ∃ n t, n ≤ 2 * ((s.len.toNat - 1) / 64) + 11 ∧ runSteps n s = .next t ∧ t.agenda = rest ∧
      t.held = [] ∧ t.len = s.len ∧ t.ops = s.ops ∧
      (runState t = .fault ∨ (runState t = .done ∧ t.cmd = c)))
end

