-- ==== Sys2Proof/Laws/Flags.lean ====
section
/-! SUPPORT. The fields of `STATUS` after one of them is set (10_state.md R14). -/

namespace Sys2Proof.Machine

/-- The bits of `STATE` after `STATE` is set. -/
theorem setStatusState_bits (r : RunState) (w : BitVec 32) :
    (setStatusState r w).extractLsb' 0 2 = (stateCode r).extractLsb' 0 2 := by
  unfold setStatusState
  rw [BitVec.extractLsb'_or, BitVec.extractLsb'_and]
  have zero : (0xFFFFFFFC#32).extractLsb' 0 2 = 0#2 := by decide
  rw [zero, BitVec.and_zero, BitVec.zero_or]

/-- Every other bit of `STATUS` after `STATE` is set. -/
theorem setStatusState_rest (r : RunState) (w : BitVec 32) :
    (setStatusState r w).extractLsb' 2 30 = w.extractLsb' 2 30 := by
  unfold setStatusState
  rw [BitVec.extractLsb'_or, BitVec.extractLsb'_and]
  have ones : (0xFFFFFFFC#32).extractLsb' 2 30 = BitVec.allOnes 30 := by decide
  have zero : (stateCode r).extractLsb' 2 30 = 0 := by cases r <;> decide
  rw [ones, zero, BitVec.and_allOnes]
  exact BitVec.or_zero

/-- A field that lies above the two bits of `STATE` keeps its value when `STATE` is set. -/
theorem setStatusState_field (r : RunState) (w : BitVec 32) {lo n : Nat} (hlo : 2 ≤ lo)
    (hn : lo + n ≤ 32) : (setStatusState r w).extractLsb' lo n = w.extractLsb' lo n := by
  refine BitVec.eq_of_getLsbD_eq fun i hi => ?_
  have h := congrArg (fun x => x.getLsbD (lo - 2 + i)) (setStatusState_rest r w)
  simp only [BitVec.getLsbD_extractLsb', show lo - 2 + i < 30 by omega,
    show 2 + (lo - 2 + i) = lo + i by omega, decide_true, Bool.true_and] at h
  simp only [BitVec.getLsbD_extractLsb', h]

/-- `STATE` after it is set. -/
@[simp] theorem statusState_setStatusState (r : RunState) (w : BitVec 32) :
    statusState (setStatusState r w) = r := by
  unfold statusState
  rw [setStatusState_bits]
  cases r <;> rfl

/-- `CAUSE` after `STATE` is set. -/
@[simp] theorem statusCause_setStatusState (r : RunState) (w : BitVec 32) :
    statusCause (setStatusState r w) = statusCause w :=
  setStatusState_field r w (by omega) (by omega)

/-- `CAUSE` after it is set. -/
@[simp] theorem statusCause_setStatusCause (c : BitVec 4) (w : BitVec 32) :
    statusCause (setStatusCause c w) = c := by
  unfold statusCause setStatusCause
  rw [BitVec.extractLsb'_or, BitVec.extractLsb'_and]
  have zero : (0xFFFFFF0F#32).extractLsb' 4 4 = 0 := by decide
  have field : ((c.setWidth 32) <<< 4).extractLsb' 4 4 = c := by revert c; decide
  rw [zero, field]
  simp

/-- A field outside `CAUSE` keeps its value when `CAUSE` is set. -/
theorem setStatusCause_field (c : BitVec 4) (w : BitVec 32) {lo n : Nat}
    (h : lo + n ≤ 4 ∨ 8 ≤ lo) (hn : lo + n ≤ 32) :
    (setStatusCause c w).extractLsb' lo n = w.extractLsb' lo n := by
  refine BitVec.eq_of_getLsbD_eq fun i hi => ?_
  simp only [setStatusCause, BitVec.getLsbD_extractLsb', hi, decide_true, Bool.true_and,
    BitVec.getLsbD_or, BitVec.getLsbD_and, BitVec.getLsbD_shiftLeft, BitVec.getLsbD_setWidth]
  have mask : ∀ k, k < 32 → (k < 4 ∨ 8 ≤ k) → (0xFFFFFF0F#32).getLsbD k = true := by decide
  rw [mask (lo + i) (by omega) (by omega), Bool.and_true]
  rcases h with h | h
  · simp [show lo + i < 4 by omega]
  · simp [BitVec.getLsbD_of_ge c (lo + i - 4) (by omega)]

/-- `STATE` after `CAUSE` is set. -/
@[simp] theorem statusState_setStatusCause (c : BitVec 4) (w : BitVec 32) :
    statusState (setStatusCause c w) = statusState w := by
  unfold statusState
  rw [setStatusCause_field c w (by omega) (by omega)]

/-- The two bits of `STATE`, from what `STATE` is. -/
theorem stateBits_eq (w : BitVec 32) :
    w.extractLsb' 0 2 = (stateCode (statusState w)).extractLsb' 0 2 := by
  unfold statusState
  generalize w.extractLsb' 0 2 = x
  revert x
  decide

end Sys2Proof.Machine
end

