-- ==== Sys2Proof/Laws/Reading.lean ====
section
/-! SUPPORT. What a buffer read can do (20_memory.md R26, R27): the value, `BufRange`, or an unbacked
byte. -/

namespace Sys2Proof.Machine

/-- A read goes on with the value it yields. -/
@[simp] theorem reading_bind_ok {α β : Type} (v : α) (f : α → Reading β) :
    ((.ok v : Reading α) >>= f) = f v := rfl

/-- A stop ends what follows. -/
@[simp] theorem reading_bind_error {α β : Type} (e : ReadStop) (f : α → Reading β) :
    ((.error e : Reading α) >>= f) = .error e := rfl

/-- A sequence of reads gives a value when the first does and the rest does on it. -/
theorem reading_bind_eq_ok {α β : Type} {r : Reading α} {f : α → Reading β} {v : β}
    (h : (r >>= f) = .ok v) : ∃ u, r = .ok u ∧ f u = .ok v := by
  cases r with
  | ok u => exact ⟨u, rfl, h⟩
  | error e => cases h

/-- A sequence of reads stops where its first stop is. -/
theorem reading_bind_eq_error {α β : Type} {r : Reading α} {f : α → Reading β} {e : ReadStop}
    (h : (r >>= f) = .error e) : r = .error e ∨ ∃ u, r = .ok u ∧ f u = .error e := by
  cases r with
  | ok u => exact .inr ⟨u, rfl, h⟩
  | error e' => exact .inl (by cases h; rfl)

/-- Bound bytes are read, lowest offset first. -/
theorem readBytes_of_backed {m : Memory} {off n : Nat} (h : BackedAt m off n) :
    readBytes m off n = .ok ((List.range n).map (fun k => (byteAt m (off + k)).getD 0)) := by
  induction n generalizing off with
  | zero => rfl
  | succ n ih =>
    obtain ⟨b, hb⟩ := h 0 (by omega)
    have hrest : BackedAt m (off + 1) n := fun k hk => by
      have := h (k + 1) (by omega)
      rwa [show off + 1 + k = off + (k + 1) by omega]
    rw [Nat.add_zero] at hb
    simp only [readBytes, hb, ih hrest, Except.map, List.range_succ_eq_map, List.map_cons,
      List.map_map, Nat.add_zero, Option.getD_some]
    congr 2
    exact List.map_congr_left fun k _ => by simp [show off + 1 + k = off + (k + 1) by omega]

/-- The little-endian number as the sum of R26. -/
theorem leNat_eq_sum (f : Nat → Byte) (n : Nat) :
    leNat ((List.range n).map f) =
      ((List.range n).map (fun k => (f k).toNat * 2 ^ (8 * k))).sum := by
  induction n generalizing f with
  | zero => rfl
  | succ n ih =>
    rw [List.range_succ_eq_map, List.map_cons, List.map_map, leNat, ih, List.map_cons, List.map_map,
      List.sum_cons, ← List.sum_map_mul_left]
    simp only [Function.comp_apply, Nat.mul_zero, Nat.pow_zero, Nat.mul_one, Nat.add_left_cancel_iff]
    congr 1
    refine List.map_congr_left fun k _ => ?_
    simp only [Function.comp_apply, Nat.succ_eq_add_one, Nat.mul_add, pow_add]
    ring

/-- A read of bound bytes in range gives their little-endian number (R26). -/
theorem memRead_of_backed {m : Memory} {len : Word} {off n : Nat} (hr : off + n ≤ len.toNat)
    (h : BackedAt m off n) : memRead m len off n = .ok (wordAt m off n) := by
  rw [memRead, if_pos (by simpa [inRange] using hr), readBytes_of_backed h]
  simp only [Except.map, leNat_eq_sum]
  rfl

/-- A read that is not in range takes no byte (R27). -/
theorem memRead_of_not_inRange {m : Memory} {len : Word} {off n : Nat} (h : len.toNat < off + n) :
    memRead m len off n = .error (.outOfRange off) := by
  rw [memRead, if_neg (by simpa [inRange] using h)]

/-- Reading bytes stops only at one that is not bound. -/
theorem readBytes_error {m : Memory} {off n : Nat} {e : ReadStop} (h : readBytes m off n = .error e) :
    ∃ k, k < n ∧ e = .unbacked (off + k) ∧ byteAt m (off + k) = none := by
  induction n generalizing off with
  | zero => cases h
  | succ n ih =>
    unfold readBytes at h
    split at h
    · next hb => cases h; exact ⟨0, by omega, rfl, hb⟩
    · next b hb =>
      cases hr : readBytes m (off + 1) n with
      | ok bs => rw [hr] at h; cases h
      | error e' =>
        rw [hr] at h
        cases h
        obtain ⟨k, hk, he, hn⟩ := ih hr
        rw [Nat.add_assoc, Nat.add_comm 1 k] at he hn
        exact ⟨k + 1, by omega, he, hn⟩

/-- Reading bytes that succeeds found every one bound. -/
theorem backedAt_of_readBytes {m : Memory} {off n : Nat} {bs : List Byte}
    (h : readBytes m off n = .ok bs) : BackedAt m off n := by
  induction n generalizing off bs with
  | zero => exact fun k hk => absurd hk (by omega)
  | succ n ih =>
    unfold readBytes at h
    split at h
    · cases h
    · next b hb =>
      cases hr : readBytes m (off + 1) n with
      | error e => rw [hr] at h; cases h
      | ok bs' =>
        intro k hk
        cases k with
        | zero => exact ⟨b, hb⟩
        | succ k =>
          obtain ⟨c, hc⟩ := ih hr k (by omega)
          exact ⟨c, by rwa [show off + (k + 1) = off + 1 + k by omega]⟩

/-- Everything a read can do. -/
theorem memRead_cases (m : Memory) (len : Word) (off n : Nat) :
    (len.toNat < off + n ∧ memRead m len off n = .error (.outOfRange off)) ∨
    (off + n ≤ len.toNat ∧ BackedAt m off n ∧ memRead m len off n = .ok (wordAt m off n)) ∨
    (off + n ≤ len.toNat ∧ ∃ k, k < n ∧ byteAt m (off + k) = none ∧
      memRead m len off n = .error (.unbacked (off + k))) := by
  by_cases hr : off + n ≤ len.toNat
  · refine .inr ?_
    cases h : readBytes m off n with
    | ok bs =>
      have hb := backedAt_of_readBytes h
      exact .inl ⟨hr, hb, memRead_of_backed hr hb⟩
    | error e =>
      obtain ⟨k, hk, rfl, hn⟩ := readBytes_error h
      refine .inr ⟨hr, k, hk, hn, ?_⟩
      rw [memRead, if_pos (by simpa [inRange] using hr), h]
      rfl
  · exact .inl ⟨by omega, memRead_of_not_inRange (by omega)⟩

/-- A read depends on the bytes it reads, and on `LEN`, only. -/
theorem memRead_congr {m m' : Memory} {len : Word} {off n : Nat}
    (h : ∀ a, a < len.toNat → byteAt m a = byteAt m' a) :
    memRead m len off n = memRead m' len off n := by
  have hbytes : ∀ n off, off + n ≤ len.toNat → readBytes m off n = readBytes m' off n := by
    intro n
    induction n with
    | zero => exact fun _ _ => rfl
    | succ n ih =>
      intro off hr
      simp only [readBytes, h off (by omega), ih (off + 1) (by omega)]
  unfold memRead
  split
  · next hr => rw [hbytes n off (by simpa [inRange] using hr)]
  · rfl

/-- A buffer backed up to `LEN` backs every read in range. -/
theorem backedAt_of_backed {s : State} (h : Backed s) {off n : Nat} (hr : off + n ≤ s.len.toNat) :
    BackedAt s.buf off n := fun k hk => h (off + k) (by omega)

/-- Everything `settle` can do. -/
theorem settle_cases {α : Type} (s : State) (r : Reading α) (done : α → State) :
    (∃ v, r = .ok v ∧ settle s r done = .next (done v)) ∨
    (∃ off, r = .error (.outOfRange off) ∧
      settle s r done = .next (raiseFault s .bufRange (BitVec.ofNat 64 off))) ∨
    (∃ off, r = .error (.unbacked off) ∧ settle s r done = .fault (.unbackedByte off)) := by
  match r with
  | .ok v => exact .inl ⟨v, rfl, rfl⟩
  | .error (.outOfRange off) => exact .inr (.inl ⟨off, rfl, rfl⟩)
  | .error (.unbacked off) => exact .inr (.inr ⟨off, rfl, rfl⟩)

end Sys2Proof.Machine
end

