-- ==== Sys2Proof/Laws/State.lean ====
section
/-! SUPPORT. One lemma per field per update of the state, so that no proof unfolds a record update. -/

namespace Sys2Proof.Machine

/-! ### `startCommand` -/

@[simp] theorem startCommand_ops (s : State) (c : CmdWord) :
    (startCommand s c).ops = s.ops := rfl
@[simp] theorem startCommand_res0 (s : State) (c : CmdWord) :
    (startCommand s c).res0 = s.res0 := rfl
@[simp] theorem startCommand_res1 (s : State) (c : CmdWord) :
    (startCommand s c).res1 = s.res1 := rfl
@[simp] theorem startCommand_len (s : State) (c : CmdWord) :
    (startCommand s c).len = s.len := rfl
@[simp] theorem startCommand_cmd (s : State) (c : CmdWord) :
    (startCommand s c).cmd = c := rfl
@[simp] theorem startCommand_status (s : State) (c : CmdWord) :
    (startCommand s c).status = setStatusCause 0 (setStatusState .busy s.status) := rfl
@[simp] theorem startCommand_finfo (s : State) (c : CmdWord) :
    (startCommand s c).finfo = s.finfo := rfl
@[simp] theorem startCommand_hidden (s : State) (c : CmdWord) :
    (startCommand s c).hidden = s.hidden := rfl
@[simp] theorem startCommand_phase (s : State) (c : CmdWord) :
    (startCommand s c).phase = .pDecode := rfl
@[simp] theorem startCommand_buf (s : State) (c : CmdWord) :
    (startCommand s c).buf = s.buf := rfl
@[simp] theorem startCommand_held (s : State) (c : CmdWord) :
    (startCommand s c).held = s.held := rfl
@[simp] theorem startCommand_agenda (s : State) (c : CmdWord) :
    (startCommand s c).agenda = s.agenda := rfl
@[simp] theorem startCommand_replies (s : State) (c : CmdWord) :
    (startCommand s c).replies = s.replies := rfl
@[simp] theorem startCommand_draws (s : State) (c : CmdWord) :
    (startCommand s c).draws = s.draws := rfl

/-! ### `endCommand` -/

@[simp] theorem endCommand_ops (s : State) :
    (endCommand s).ops = s.ops := rfl
@[simp] theorem endCommand_res0 (s : State) :
    (endCommand s).res0 = s.res0 := rfl
@[simp] theorem endCommand_res1 (s : State) :
    (endCommand s).res1 = s.res1 := rfl
@[simp] theorem endCommand_len (s : State) :
    (endCommand s).len = s.len := rfl
@[simp] theorem endCommand_cmd (s : State) :
    (endCommand s).cmd = s.cmd := rfl
@[simp] theorem endCommand_status (s : State) :
    (endCommand s).status = setStatusState .done s.status := rfl
@[simp] theorem endCommand_finfo (s : State) :
    (endCommand s).finfo = s.finfo := rfl
@[simp] theorem endCommand_hidden (s : State) :
    (endCommand s).hidden = s.hidden := rfl
@[simp] theorem endCommand_phase (s : State) :
    (endCommand s).phase = .pIdle := rfl
@[simp] theorem endCommand_buf (s : State) :
    (endCommand s).buf = s.buf := rfl
@[simp] theorem endCommand_held (s : State) :
    (endCommand s).held = s.held := rfl
@[simp] theorem endCommand_agenda (s : State) :
    (endCommand s).agenda = s.agenda := rfl
@[simp] theorem endCommand_replies (s : State) :
    (endCommand s).replies = s.replies := rfl
@[simp] theorem endCommand_draws (s : State) :
    (endCommand s).draws = s.draws := rfl

/-! ### `completeOne` -/

@[simp] theorem completeOne_ops (s : State) (v : Word) :
    (completeOne s v).ops = s.ops := rfl
@[simp] theorem completeOne_res0 (s : State) (v : Word) :
    (completeOne s v).res0 = v := rfl
@[simp] theorem completeOne_res1 (s : State) (v : Word) :
    (completeOne s v).res1 = s.res1 := rfl
@[simp] theorem completeOne_len (s : State) (v : Word) :
    (completeOne s v).len = s.len := rfl
@[simp] theorem completeOne_cmd (s : State) (v : Word) :
    (completeOne s v).cmd = s.cmd := rfl
@[simp] theorem completeOne_status (s : State) (v : Word) :
    (completeOne s v).status = setStatusState .done s.status := rfl
@[simp] theorem completeOne_finfo (s : State) (v : Word) :
    (completeOne s v).finfo = s.finfo := rfl
@[simp] theorem completeOne_hidden (s : State) (v : Word) :
    (completeOne s v).hidden = s.hidden := rfl
@[simp] theorem completeOne_phase (s : State) (v : Word) :
    (completeOne s v).phase = .pIdle := rfl
@[simp] theorem completeOne_buf (s : State) (v : Word) :
    (completeOne s v).buf = s.buf := rfl
@[simp] theorem completeOne_held (s : State) (v : Word) :
    (completeOne s v).held = s.held := rfl
@[simp] theorem completeOne_agenda (s : State) (v : Word) :
    (completeOne s v).agenda = s.agenda := rfl
@[simp] theorem completeOne_replies (s : State) (v : Word) :
    (completeOne s v).replies = s.replies := rfl
@[simp] theorem completeOne_draws (s : State) (v : Word) :
    (completeOne s v).draws = s.draws := rfl

/-! ### `completePair` -/

@[simp] theorem completePair_ops (s : State) (p : Pair) :
    (completePair s p).ops = s.ops := rfl
@[simp] theorem completePair_res0 (s : State) (p : Pair) :
    (completePair s p).res0 = p.first := rfl
@[simp] theorem completePair_res1 (s : State) (p : Pair) :
    (completePair s p).res1 = p.second := rfl
@[simp] theorem completePair_len (s : State) (p : Pair) :
    (completePair s p).len = s.len := rfl
@[simp] theorem completePair_cmd (s : State) (p : Pair) :
    (completePair s p).cmd = s.cmd := rfl
@[simp] theorem completePair_status (s : State) (p : Pair) :
    (completePair s p).status = setStatusState .done s.status := rfl
@[simp] theorem completePair_finfo (s : State) (p : Pair) :
    (completePair s p).finfo = s.finfo := rfl
@[simp] theorem completePair_hidden (s : State) (p : Pair) :
    (completePair s p).hidden = s.hidden := rfl
@[simp] theorem completePair_phase (s : State) (p : Pair) :
    (completePair s p).phase = .pIdle := rfl
@[simp] theorem completePair_buf (s : State) (p : Pair) :
    (completePair s p).buf = s.buf := rfl
@[simp] theorem completePair_held (s : State) (p : Pair) :
    (completePair s p).held = s.held := rfl
@[simp] theorem completePair_agenda (s : State) (p : Pair) :
    (completePair s p).agenda = s.agenda := rfl
@[simp] theorem completePair_replies (s : State) (p : Pair) :
    (completePair s p).replies = s.replies := rfl
@[simp] theorem completePair_draws (s : State) (p : Pair) :
    (completePair s p).draws = s.draws := rfl

/-! ### `forgetHidden` -/

@[simp] theorem forgetHidden_ops (s : State) :
    (forgetHidden s).ops = s.ops := rfl
@[simp] theorem forgetHidden_res0 (s : State) :
    (forgetHidden s).res0 = s.res0 := rfl
@[simp] theorem forgetHidden_res1 (s : State) :
    (forgetHidden s).res1 = s.res1 := rfl
@[simp] theorem forgetHidden_len (s : State) :
    (forgetHidden s).len = s.len := rfl
@[simp] theorem forgetHidden_cmd (s : State) :
    (forgetHidden s).cmd = s.cmd := rfl
@[simp] theorem forgetHidden_status (s : State) :
    (forgetHidden s).status = s.status := rfl
@[simp] theorem forgetHidden_finfo (s : State) :
    (forgetHidden s).finfo = s.finfo := rfl
@[simp] theorem forgetHidden_hidden (s : State) :
    (forgetHidden s).hidden = Hidden.free s.draws := rfl
@[simp] theorem forgetHidden_phase (s : State) :
    (forgetHidden s).phase = s.phase := rfl
@[simp] theorem forgetHidden_buf (s : State) :
    (forgetHidden s).buf = s.buf := rfl
@[simp] theorem forgetHidden_held (s : State) :
    (forgetHidden s).held = s.held := rfl
@[simp] theorem forgetHidden_agenda (s : State) :
    (forgetHidden s).agenda = s.agenda := rfl
@[simp] theorem forgetHidden_replies (s : State) :
    (forgetHidden s).replies = s.replies := rfl
@[simp] theorem forgetHidden_draws (s : State) :
    (forgetHidden s).draws = s.draws + 9 := rfl

/-! ### `raiseFault` -/

@[simp] theorem raiseFault_ops (s : State) (c : Cause) (info : Word) :
    (raiseFault s c info).ops = s.ops := rfl
@[simp] theorem raiseFault_res0 (s : State) (c : Cause) (info : Word) :
    (raiseFault s c info).res0 = Config.free s.draws := rfl
@[simp] theorem raiseFault_res1 (s : State) (c : Cause) (info : Word) :
    (raiseFault s c info).res1 = Config.free (s.draws + 1) := rfl
@[simp] theorem raiseFault_len (s : State) (c : Cause) (info : Word) :
    (raiseFault s c info).len = s.len := rfl
@[simp] theorem raiseFault_cmd (s : State) (c : Cause) (info : Word) :
    (raiseFault s c info).cmd = s.cmd := rfl
@[simp] theorem raiseFault_status (s : State) (c : Cause) (info : Word) :
    (raiseFault s c info).status = setStatusState .fault (setStatusCause (causeCode c) s.status) := rfl
@[simp] theorem raiseFault_finfo (s : State) (c : Cause) (info : Word) :
    (raiseFault s c info).finfo = info := rfl
@[simp] theorem raiseFault_hidden (s : State) (c : Cause) (info : Word) :
    (raiseFault s c info).hidden = Hidden.free (s.draws + 2) := rfl
@[simp] theorem raiseFault_phase (s : State) (c : Cause) (info : Word) :
    (raiseFault s c info).phase = .pIdle := rfl
@[simp] theorem raiseFault_buf (s : State) (c : Cause) (info : Word) :
    (raiseFault s c info).buf = s.buf := rfl
@[simp] theorem raiseFault_held (s : State) (c : Cause) (info : Word) :
    (raiseFault s c info).held = s.held := rfl
@[simp] theorem raiseFault_agenda (s : State) (c : Cause) (info : Word) :
    (raiseFault s c info).agenda = s.agenda := rfl
@[simp] theorem raiseFault_replies (s : State) (c : Cause) (info : Word) :
    (raiseFault s c info).replies = s.replies := rfl
@[simp] theorem raiseFault_draws (s : State) (c : Cause) (info : Word) :
    (raiseFault s c info).draws = s.draws + 11 := rfl

/-! ### `raiseIllegal` -/

@[simp] theorem raiseIllegal_ops (s : State) :
    (raiseIllegal s).ops = s.ops := rfl
@[simp] theorem raiseIllegal_res0 (s : State) :
    (raiseIllegal s).res0 = Config.free s.draws := rfl
@[simp] theorem raiseIllegal_res1 (s : State) :
    (raiseIllegal s).res1 = Config.free (s.draws + 1) := rfl
@[simp] theorem raiseIllegal_len (s : State) :
    (raiseIllegal s).len = s.len := rfl
@[simp] theorem raiseIllegal_cmd (s : State) :
    (raiseIllegal s).cmd = s.cmd := rfl
@[simp] theorem raiseIllegal_status (s : State) :
    (raiseIllegal s).status = setStatusState .fault (setStatusCause 2 s.status) := rfl
@[simp] theorem raiseIllegal_finfo (s : State) :
    (raiseIllegal s).finfo = s.cmd.setWidth 64 := rfl
@[simp] theorem raiseIllegal_hidden (s : State) :
    (raiseIllegal s).hidden = Hidden.free (s.draws + 2) := rfl
@[simp] theorem raiseIllegal_phase (s : State) :
    (raiseIllegal s).phase = .pIdle := rfl
@[simp] theorem raiseIllegal_buf (s : State) :
    (raiseIllegal s).buf = s.buf := rfl
@[simp] theorem raiseIllegal_held (s : State) :
    (raiseIllegal s).held = s.held := rfl
@[simp] theorem raiseIllegal_agenda (s : State) :
    (raiseIllegal s).agenda = s.agenda := rfl
@[simp] theorem raiseIllegal_replies (s : State) :
    (raiseIllegal s).replies = s.replies := rfl
@[simp] theorem raiseIllegal_draws (s : State) :
    (raiseIllegal s).draws = s.draws + 11 := rfl

/-! ### `resetEvent` -/

@[simp] theorem resetEvent_ops (s : State) :
    (resetEvent s).ops = OpFile.free s.draws := rfl
@[simp] theorem resetEvent_res0 (s : State) :
    (resetEvent s).res0 = Config.free (s.draws + 6) := rfl
@[simp] theorem resetEvent_res1 (s : State) :
    (resetEvent s).res1 = Config.free (s.draws + 7) := rfl
@[simp] theorem resetEvent_len (s : State) :
    (resetEvent s).len = 0 := rfl
@[simp] theorem resetEvent_cmd (s : State) :
    (resetEvent s).cmd = 0 := rfl
@[simp] theorem resetEvent_status (s : State) :
    (resetEvent s).status = 0 := rfl
@[simp] theorem resetEvent_finfo (s : State) :
    (resetEvent s).finfo = 0 := rfl
@[simp] theorem resetEvent_hidden (s : State) :
    (resetEvent s).hidden = Hidden.free (s.draws + 8) := rfl
@[simp] theorem resetEvent_phase (s : State) :
    (resetEvent s).phase = .pIdle := rfl
@[simp] theorem resetEvent_buf (s : State) :
    (resetEvent s).buf = s.buf := rfl
@[simp] theorem resetEvent_held (s : State) :
    (resetEvent s).held = s.held := rfl
@[simp] theorem resetEvent_agenda (s : State) :
    (resetEvent s).agenda = s.agenda := rfl
@[simp] theorem resetEvent_replies (s : State) :
    (resetEvent s).replies = s.replies := rfl
@[simp] theorem resetEvent_draws (s : State) :
    (resetEvent s).draws = s.draws + 17 := rfl

/-! ### `primed` -/

@[simp] theorem primed_ops (s : State) (h : Hidden) :
    (primed s h).ops = s.ops := rfl
@[simp] theorem primed_res0 (s : State) (h : Hidden) :
    (primed s h).res0 = s.res0 := rfl
@[simp] theorem primed_res1 (s : State) (h : Hidden) :
    (primed s h).res1 = s.res1 := rfl
@[simp] theorem primed_len (s : State) (h : Hidden) :
    (primed s h).len = s.len := rfl
@[simp] theorem primed_cmd (s : State) (h : Hidden) :
    (primed s h).cmd = s.cmd := rfl
@[simp] theorem primed_status (s : State) (h : Hidden) :
    (primed s h).status = s.status := rfl
@[simp] theorem primed_finfo (s : State) (h : Hidden) :
    (primed s h).finfo = s.finfo := rfl
@[simp] theorem primed_hidden (s : State) (h : Hidden) :
    (primed s h).hidden = h := rfl
@[simp] theorem primed_phase (s : State) (h : Hidden) :
    (primed s h).phase = .pBlock := rfl
@[simp] theorem primed_buf (s : State) (h : Hidden) :
    (primed s h).buf = s.buf := rfl
@[simp] theorem primed_held (s : State) (h : Hidden) :
    (primed s h).held = s.held := rfl
@[simp] theorem primed_agenda (s : State) (h : Hidden) :
    (primed s h).agenda = s.agenda := rfl
@[simp] theorem primed_replies (s : State) (h : Hidden) :
    (primed s h).replies = s.replies := rfl
@[simp] theorem primed_draws (s : State) (h : Hidden) :
    (primed s h).draws = s.draws := rfl

/-! ### `blockDone` -/

@[simp] theorem blockDone_ops (s : State) (h : Hidden) :
    (blockDone s h).ops = s.ops := rfl
@[simp] theorem blockDone_res0 (s : State) (h : Hidden) :
    (blockDone s h).res0 = s.res0 := rfl
@[simp] theorem blockDone_res1 (s : State) (h : Hidden) :
    (blockDone s h).res1 = s.res1 := rfl
@[simp] theorem blockDone_len (s : State) (h : Hidden) :
    (blockDone s h).len = s.len := rfl
@[simp] theorem blockDone_cmd (s : State) (h : Hidden) :
    (blockDone s h).cmd = s.cmd := rfl
@[simp] theorem blockDone_status (s : State) (h : Hidden) :
    (blockDone s h).status = s.status := rfl
@[simp] theorem blockDone_finfo (s : State) (h : Hidden) :
    (blockDone s h).finfo = s.finfo := rfl
@[simp] theorem blockDone_hidden (s : State) (h : Hidden) :
    (blockDone s h).hidden = h := rfl
@[simp] theorem blockDone_phase (s : State) (h : Hidden) :
    (blockDone s h).phase = if h.rem = 0 then .pFinal else .pBlock := rfl
@[simp] theorem blockDone_buf (s : State) (h : Hidden) :
    (blockDone s h).buf = s.buf := rfl
@[simp] theorem blockDone_held (s : State) (h : Hidden) :
    (blockDone s h).held = s.held := rfl
@[simp] theorem blockDone_agenda (s : State) (h : Hidden) :
    (blockDone s h).agenda = s.agenda := rfl
@[simp] theorem blockDone_replies (s : State) (h : Hidden) :
    (blockDone s h).replies = s.replies := rfl
@[simp] theorem blockDone_draws (s : State) (h : Hidden) :
    (blockDone s h).draws = s.draws := rfl

/-! ### `completeRead` -/

@[simp] theorem completeRead_ops (s : State) (r : HostReg) :
    (completeRead s r).ops = s.ops := rfl
@[simp] theorem completeRead_res0 (s : State) (r : HostReg) :
    (completeRead s r).res0 = s.res0 := rfl
@[simp] theorem completeRead_res1 (s : State) (r : HostReg) :
    (completeRead s r).res1 = s.res1 := rfl
@[simp] theorem completeRead_len (s : State) (r : HostReg) :
    (completeRead s r).len = s.len := rfl
@[simp] theorem completeRead_cmd (s : State) (r : HostReg) :
    (completeRead s r).cmd = s.cmd := rfl
@[simp] theorem completeRead_status (s : State) (r : HostReg) :
    (completeRead s r).status = s.status := rfl
@[simp] theorem completeRead_finfo (s : State) (r : HostReg) :
    (completeRead s r).finfo = s.finfo := rfl
@[simp] theorem completeRead_hidden (s : State) (r : HostReg) :
    (completeRead s r).hidden = s.hidden := rfl
@[simp] theorem completeRead_phase (s : State) (r : HostReg) :
    (completeRead s r).phase = s.phase := rfl
@[simp] theorem completeRead_buf (s : State) (r : HostReg) :
    (completeRead s r).buf = s.buf := rfl
@[simp] theorem completeRead_held (s : State) (r : HostReg) :
    (completeRead s r).held = s.held := rfl
@[simp] theorem completeRead_agenda (s : State) (r : HostReg) :
    (completeRead s r).agenda = s.agenda := rfl
@[simp] theorem completeRead_replies (s : State) (r : HostReg) :
    (completeRead s r).replies = s.replies ++ [(r, readReg s r)] := rfl
@[simp] theorem completeRead_draws (s : State) (r : HostReg) :
    (completeRead s r).draws = s.draws := rfl

/-! ### `placeCommand` -/

@[simp] theorem placeCommand_ops (s : State) (c : CmdWord) :
    (placeCommand s c).ops = s.ops := rfl
@[simp] theorem placeCommand_res0 (s : State) (c : CmdWord) :
    (placeCommand s c).res0 = s.res0 := rfl
@[simp] theorem placeCommand_res1 (s : State) (c : CmdWord) :
    (placeCommand s c).res1 = s.res1 := rfl
@[simp] theorem placeCommand_len (s : State) (c : CmdWord) :
    (placeCommand s c).len = s.len := rfl
@[simp] theorem placeCommand_cmd (s : State) (c : CmdWord) :
    (placeCommand s c).cmd = c := rfl
@[simp] theorem placeCommand_status (s : State) (c : CmdWord) :
    (placeCommand s c).status = setStatusCause 0 (setStatusState .busy s.status) := rfl
@[simp] theorem placeCommand_finfo (s : State) (c : CmdWord) :
    (placeCommand s c).finfo = s.finfo := rfl
@[simp] theorem placeCommand_hidden (s : State) (c : CmdWord) :
    (placeCommand s c).hidden = s.hidden := rfl
@[simp] theorem placeCommand_phase (s : State) (c : CmdWord) :
    (placeCommand s c).phase = .pDecode := rfl
@[simp] theorem placeCommand_buf (s : State) (c : CmdWord) :
    (placeCommand s c).buf = s.buf := rfl
@[simp] theorem placeCommand_held (s : State) (c : CmdWord) :
    (placeCommand s c).held = s.held := rfl
@[simp] theorem placeCommand_agenda (s : State) (c : CmdWord) :
    (placeCommand s c).agenda = .command :: s.agenda := rfl
@[simp] theorem placeCommand_replies (s : State) (c : CmdWord) :
    (placeCommand s c).replies = s.replies := rfl
@[simp] theorem placeCommand_draws (s : State) (c : CmdWord) :
    (placeCommand s c).draws = s.draws := rfl

/-! ### `completeDigest`: what it writes whatever `LEN` is, and the hidden registers by case -/

@[simp] theorem completeDigest_ops (s : State) (d : Word) :
    (completeDigest s d).ops = s.ops := by
  unfold completeDigest; split <;> rfl
@[simp] theorem completeDigest_res0 (s : State) (d : Word) :
    (completeDigest s d).res0 = d := by
  unfold completeDigest; split <;> rfl
@[simp] theorem completeDigest_res1 (s : State) (d : Word) :
    (completeDigest s d).res1 = s.res1 := by
  unfold completeDigest; split <;> rfl
@[simp] theorem completeDigest_len (s : State) (d : Word) :
    (completeDigest s d).len = s.len := by
  unfold completeDigest; split <;> rfl
@[simp] theorem completeDigest_cmd (s : State) (d : Word) :
    (completeDigest s d).cmd = s.cmd := by
  unfold completeDigest; split <;> rfl
@[simp] theorem completeDigest_status (s : State) (d : Word) :
    (completeDigest s d).status = setStatusState .done s.status := by
  unfold completeDigest; split <;> rfl
@[simp] theorem completeDigest_finfo (s : State) (d : Word) :
    (completeDigest s d).finfo = s.finfo := by
  unfold completeDigest; split <;> rfl
@[simp] theorem completeDigest_phase (s : State) (d : Word) :
    (completeDigest s d).phase = .pIdle := by
  unfold completeDigest; split <;> rfl
@[simp] theorem completeDigest_buf (s : State) (d : Word) :
    (completeDigest s d).buf = s.buf := by
  unfold completeDigest; split <;> rfl
@[simp] theorem completeDigest_held (s : State) (d : Word) :
    (completeDigest s d).held = s.held := by
  unfold completeDigest; split <;> rfl
@[simp] theorem completeDigest_agenda (s : State) (d : Word) :
    (completeDigest s d).agenda = s.agenda := by
  unfold completeDigest; split <;> rfl
@[simp] theorem completeDigest_replies (s : State) (d : Word) :
    (completeDigest s d).replies = s.replies := by
  unfold completeDigest; split <;> rfl

theorem completeDigest_of_short {s : State} (h : s.len.toNat ≤ 64) (d : Word) :
    completeDigest s d = completeOne s d := by
  simp [completeDigest, Nat.not_lt.mpr h]

theorem completeDigest_of_long {s : State} (h : 64 < s.len.toNat) (d : Word) :
    completeDigest s d = completeOne (forgetHidden s) d := by
  simp [completeDigest, h]

/-! ### `writeOp` and `readOp` -/

/-- A written operand register holds the value, every other is kept (R10). -/
theorem readOp_writeOp (o : OpFile) (i j : Fin 6) (v : Word) :
    readOp (writeOp o i v) j = if j = i then v else readOp o j := by
  fin_cases i <;> fin_cases j <;> rfl

/-- Two operand files with equal registers are equal. -/
theorem opFile_ext {a b : OpFile} (h : ∀ i, readOp a i = readOp b i) : a = b := by
  have h0 := h 0
  have h1 := h 1
  have h2 := h 2
  have h3 := h 3
  have h4 := h 4
  have h5 := h 5
  cases a
  cases b
  simp_all [readOp]

end Sys2Proof.Machine
end

