-- ==== Sys2Proof/Laws/Commands.lean ====
section
/-! SUPPORT. What the shared endings of a command do (10_state.md R11, R16; 42_streaming_pipeline.md R86),
said once, and what the reads of the handlers give on a backed buffer. -/

namespace Sys2Proof.Machine

/-- Ending a command sets `STATE` to `DONE` and keeps every other bit of `STATUS`. -/
theorem endsDone_of_status {s t : State} (hs : t.status = setStatusState .done s.status)
    (hp : t.phase = .pIdle) (hf : t.finfo = s.finfo) : EndsDone s t :=
  ⟨by rw [hs, setStatusState_bits]; rfl, by rw [hs, setStatusState_rest], hp, hf⟩

/-- Everything `completeOne` does. -/
theorem completeOne_oneResult (s : State) (v : Word) : OneResult s (completeOne s v) v :=
  ⟨rfl, rfl, ⟨⟨rfl, rfl, rfl, fun _ => rfl, rfl, rfl, rfl⟩, endsDone_of_status rfl rfl rfl, rfl, rfl⟩⟩

/-- Everything `completePair` does. -/
theorem completePair_twoResults (s : State) (p : Pair) : TwoResults s (completePair s p) p :=
  ⟨rfl, rfl, ⟨⟨rfl, rfl, rfl, fun _ => rfl, rfl, rfl, rfl⟩, endsDone_of_status rfl rfl rfl, rfl, rfl⟩⟩

/-- Everything `completeDigest` does. -/
theorem completeDigest_digestResult (s : State) (v : Word) : DigestResult s (completeDigest s v) v := by
  refine ⟨by simp, by simp, ⟨by simp, by simp, by simp, by simp, by simp, by simp, by simp⟩,
    endsDone_of_status (by simp) (by simp) (by simp), fun h => ?_⟩
  rw [completeDigest_of_short h]
  simp

/-- A command that reads the buffer goes on: with the value read, or into `BufRange`. -/
theorem settle_eq_next {α : Type} {s t : State} {r : Reading α} {done : α → State}
    (h : settle s r done = .next t) :
    (∃ v, r = .ok v ∧ t = done v) ∨
    ∃ off, r = .error (.outOfRange off) ∧ t = raiseFault s .bufRange (BitVec.ofNat 64 off) := by
  rcases settle_cases s r done with ⟨v, hr, hs⟩ | ⟨off, hr, hs⟩ | ⟨off, hr, hs⟩
  · rw [h] at hs; cases hs; exact .inl ⟨v, hr, rfl⟩
  · rw [h] at hs; cases hs; exact .inr ⟨off, hr, rfl⟩
  · rw [h] at hs; cases hs

/-- Four bound words in range: the buffer form is the scalar form on them (R65). -/
theorem weakHashBuf_of_backedAt {m : Memory} {len : Word} {off : Nat} (hr : off + 32 ≤ len.toNat)
    (h : BackedAt m off 32) (a b : Word) :
    weakHashBuf m len off a b = .ok (weakHash (wordAt m off 8) (wordAt m (off + 8) 8)
      (wordAt m (off + 16) 8) (wordAt m (off + 24) 8) a b) := by
  have read : ∀ k, k + 8 ≤ 32 → fetch64 m len (off + k) = .ok (wordAt m (off + k) 8) := fun k hk =>
    memRead_of_backed (by omega) fun j hj => by
      have := h (k + j) (by omega)
      rwa [← Nat.add_assoc] at this
  have first := read 0 (by omega)
  rw [Nat.add_zero] at first
  simp only [weakHashBuf, first, read 8 (by omega), read 16 (by omega), read 24 (by omega),
    reading_bind_ok]

/-- On a backed buffer every word read in range is its little-endian value. -/
theorem fetch64_of_backed {s : State} (h : Backed s) {off : Nat} (hr : off + 8 ≤ s.len.toNat) :
    fetch64 s.buf s.len off = .ok (wordAt s.buf off 8) :=
  memRead_of_backed hr (backedAt_of_backed h hr)

/-- The same for 32 bits. -/
theorem fetch32_of_backed {s : State} (h : Backed s) {off : Nat} (hr : off + 4 ≤ s.len.toNat) :
    fetch32 s.buf s.len off = .ok (wordAt s.buf off 4) :=
  memRead_of_backed hr (backedAt_of_backed h hr)

/-- The same for one byte. -/
theorem fetch8_of_backed {s : State} (h : Backed s) {off : Nat} (hr : off + 1 ≤ s.len.toNat) :
    fetch8 s.buf s.len off = .ok (wordAt s.buf off 1) :=
  memRead_of_backed hr (backedAt_of_backed h hr)

/-- `n` bytes are a number below `2^(8n)`. -/
theorem bytesValue_lt (m : Memory) (off n : Nat) : bytesValue m off n < 2 ^ (8 * n) := by
  unfold bytesValue
  induction n with
  | zero => simp
  | succ n ih =>
    rw [List.range_succ, List.map_append, List.sum_append]
    have hb := ((byteAt m (off + n)).getD 0).isLt
    simp only [List.map_cons, List.map_nil, List.sum_cons, List.sum_nil, Nat.add_zero]
    rw [show 8 * (n + 1) = 8 * n + 8 by omega, Nat.pow_add]
    have := Nat.mul_le_mul_right (2 ^ (8 * n)) (Nat.le_of_lt_succ hb)
    omega

/-- A block step moves past its block (R82). -/
theorem blockStep_pos_rem {m : Memory} {len : Word} {h h' : Hidden} (e : blockStep m len h = .ok h') :
    h'.pos = h.pos + 64 ∧ h'.rem = h.rem - 64 := by
  unfold blockStep at e
  simp only at e
  repeat (obtain ⟨_, _, e⟩ := reading_bind_eq_ok e)
  cases e
  exact ⟨rfl, rfl⟩

/-- Clearing the low six bits rounds down to a multiple of 64. -/
theorem toNat_and_not63 (a : Word) : (a &&& ~~~63#64).toNat = 64 * (a.toNat / 64) := by
  have shift : (a &&& ~~~63#64) = (a >>> 6) <<< 6 := by
    refine BitVec.eq_of_getLsbD_eq fun i hi => ?_
    have mask : ∀ k, k < 64 → (~~~63#64 : Word).getLsbD k = decide (6 ≤ k) := by decide
    rw [BitVec.getLsbD_and, mask i hi, BitVec.getLsbD_shiftLeft, BitVec.getLsbD_ushiftRight]
    by_cases h : 6 ≤ i
    · simp [h, hi, show ¬ i < 6 by omega]
    · simp [h, show i < 6 by omega]
  rw [shift]
  have := a.isLt
  simp [Nat.shiftLeft_eq, Nat.shiftRight_eq_div_pow]
  omega

end Sys2Proof.Machine
end

