-- ==== Sys2Proof/Laws/Decode.lean ====
section
/-! SUPPORT. One lemma per format of the decoder, and that a word is its four fields. -/

namespace Sys2Proof

/-- Format `C0` accepts exactly zero `sh` and zero `wd`. -/
theorem formatC0_eq_ok {f : CmdFields} {j i : Instr} :
    formatC0 f j = .ok i ↔ f.sh = 0 ∧ f.wd = 0 ∧ i = j := by
  unfold formatC0
  split
  · next h => exact ⟨nofun, fun h' => absurd h'.1 h⟩
  · next h =>
    split
    · next h' => exact ⟨nofun, fun h'' => absurd h''.2.1 h'⟩
    · next h' => simp only [ne_eq, not_not] at h h'; simp [h, h', eq_comm]

/-- Format `CS` accepts exactly zero `wd`. -/
theorem formatCS_eq_ok {f : CmdFields} {j : BitVec 6 → Instr} {i : Instr} :
    formatCS f j = .ok i ↔ f.wd = 0 ∧ i = j f.sh := by
  unfold formatCS
  split
  · next h => exact ⟨nofun, fun h' => absurd h'.1 h⟩
  · next h => simp only [ne_eq, not_not] at h; simp [h, eq_comm]

/-- Format `CW` accepts exactly zero `sh`, and `wd` selects the row. -/
theorem formatCW_eq_ok {f : CmdFields} {b h w d i : Instr} :
    formatCW f b h w d = .ok i ↔
      f.sh = 0 ∧ ((f.wd = 0 ∧ i = b) ∨ (f.wd = 1 ∧ i = h) ∨ (f.wd = 2 ∧ i = w) ∨ (f.wd = 3 ∧ i = d)) := by
  obtain ⟨op, sh, wd, zero⟩ := f
  have four : wd = 0 ∨ wd = 1 ∨ wd = 2 ∨ wd = 3 := by revert wd; decide
  unfold formatCW
  split
  · next hs => simp_all
  · next hs =>
    simp only [ne_eq, not_not] at hs
    rcases four with rfl | rfl | rfl | rfl <;> simp [hs, eq_comm]

/-- Two words with equal fields are equal. -/
theorem eq_of_fieldsOf_eq {c d : CmdWord} (h : fieldsOf c = fieldsOf d) : c = d := by
  simp only [fieldsOf, CmdFields.mk.injEq] at h
  obtain ⟨hop, hsh, hwd, hzero⟩ := h
  refine BitVec.eq_of_getLsbD_eq fun i hi => ?_
  have at_field (st n : Nat) (h : c.extractLsb' st n = d.extractLsb' st n) (hlo : st ≤ i)
      (hhi : i < st + n) : c.getLsbD i = d.getLsbD i := by
    have hbit := congrArg (fun x => x.getLsbD (i - st)) h
    simpa only [BitVec.getLsbD_extractLsb', show i - st < n by omega, decide_true, Bool.true_and,
      show st + (i - st) = i by omega] using hbit
  by_cases h8 : i < 8
  · exact at_field 0 8 hop (by omega) (by omega)
  by_cases h14 : i < 14
  · exact at_field 8 6 hsh (by omega) (by omega)
  by_cases h16 : i < 16
  · exact at_field 14 2 hwd (by omega) (by omega)
  · exact at_field 16 16 hzero (by omega) (by omega)

end Sys2Proof
end

