-- ==== Sys2Proof/Laws/Turns.lean ====
section
/-! SUPPORT. What one step can do, said once: which agent moves, and what it does. -/

namespace Sys2Proof.Machine

/-- Everything a step can be: a held access that completes, the sequencer's turn, or the host's. -/
theorem step_cases (s : State) :
    (runState s ≠ .busy ∧ ∃ a rest, s.held = a :: rest ∧
      step s = .next (completeAccess { s with held := rest } a)) ∨
    ((runState s = .busy ∨ s.held = []) ∧
      ((s.agenda = [] ∧ step s = sequenceCommand s) ∨
       (∃ rest, s.agenda = .command :: rest ∧ step s = sequenceCommand { s with agenda := rest }) ∨
       (∃ rest, s.agenda = .phase :: rest ∧ step s = sequencePhase { s with agenda := rest }) ∨
       (∃ m rest, s.agenda = .host m :: rest ∧ step s = hostTurn { s with agenda := rest } m) ∨
       (∃ rest, s.agenda = .await :: rest ∧ step s = awaitTurn s rest))) := by
  have agenda : (runState s = .busy ∨ s.held = []) → step s = agendaTurn s := by
    intro h
    unfold step nextTurn
    split
    · rfl
    · next hheld => rcases h with h | h <;> simp_all
  by_cases hb : runState s = .busy ∨ s.held = []
  · refine .inr ⟨hb, ?_⟩
    rw [agenda hb]
    unfold agendaTurn
    match h : s.agenda with
    | [] => exact .inl ⟨rfl, rfl⟩
    | .command :: rest => exact .inr (.inl ⟨rest, rfl, rfl⟩)
    | .phase :: rest => exact .inr (.inr (.inl ⟨rest, rfl, rfl⟩))
    | .host m :: rest => exact .inr (.inr (.inr (.inl ⟨m, rest, rfl, rfl⟩)))
    | .await :: rest => exact .inr (.inr (.inr (.inr ⟨rest, rfl, rfl⟩)))
  · rw [not_or] at hb
    refine .inl ⟨hb.1, ?_⟩
    match h : s.held with
    | [] => exact absurd h hb.2
    | a :: rest =>
      refine ⟨a, rest, rfl, ?_⟩
      unfold step nextTurn
      rw [h]
      exact if_neg hb.1

/-- Everything a waiting host can see: the sequencer's turn, the wait kept; or the end of the wait. -/
theorem awaitTurn_cases (s : State) (rest : List Turn) :
    (runState s = .busy ∧ awaitTurn s rest = sequenceCommand s) ∨
    (runState s ≠ .busy ∧ awaitTurn s rest = .next { s with agenda := rest }) := by
  unfold awaitTurn
  split
  · next h => exact .inl ⟨h, rfl⟩
  · next h => exact .inr ⟨h, rfl⟩

/-- Everything the host's turn can be. -/
theorem hostTurn_cases (s : State) (m : HostMove) :
    (∃ a, m = .access a ∧ hostTurn s m = .next (accessTurn s a)) ∨
    (m = .reset ∧ hostTurn s m = .next (resetEvent s)) ∨
    (∃ buf, (∀ a, m ≠ .access a) ∧ m ≠ .reset ∧ hostTurn s m = bufferTurn s buf) := by
  cases m with
  | access a => exact .inl ⟨a, rfl, rfl⟩
  | bind bytes => exact .inr (.inr ⟨_, by simp, by simp, rfl⟩)
  | poke off b => exact .inr (.inr ⟨_, by simp, by simp, rfl⟩)
  | release => exact .inr (.inr ⟨_, by simp, by simp, rfl⟩)
  | reset => exact .inr (.inl ⟨rfl, rfl⟩)

end Sys2Proof.Machine
end

