-- ==== Sys2Proof/Laws/Host.lean ====
section
/-! SUPPORT. The host's side, said once: which turn a step is, and what a write does in each state
(10_state.md R18, R19; 60_exceptions.md R96). -/

namespace Sys2Proof.Machine

/-- With nothing held that could complete, the step is the host's turn. -/
theorem step_of_host {s : State} {m : HostMove} {rest : List Turn}
    (hh : runState s = .busy ∨ s.held = []) (ha : s.agenda = .host m :: rest) :
    step s = hostTurn { s with agenda := rest } m := by
  rcases step_cases s with ⟨hn, a, r, hr, -⟩ |
    ⟨-, h | ⟨r, hr, -⟩ | ⟨r, hr, -⟩ | ⟨m', r, hr, e⟩ | ⟨r, hr, -⟩⟩
  · rcases hh with h | h
    · exact absurd h hn
    · rw [h] at hr; cases hr
  · rw [ha] at h; cases h.1
  · rw [ha] at hr; cases hr
  · rw [ha] at hr; cases hr
  · rw [ha] at hr; cases hr; exact e
  · rw [ha] at hr; cases hr

/-- With nothing held that could complete, the step is the waiting host's turn. -/
theorem step_of_await {s : State} {rest : List Turn} (hh : runState s = .busy ∨ s.held = [])
    (ha : s.agenda = .await :: rest) : step s = awaitTurn s rest := by
  rcases step_cases s with ⟨hn, a, r, hr, -⟩ |
    ⟨-, h | ⟨r, hr, -⟩ | ⟨r, hr, -⟩ | ⟨m', r, hr, -⟩ | ⟨r, hr, e⟩⟩
  · rcases hh with h | h
    · exact absurd h hn
    · rw [h] at hr; cases hr
  · rw [ha] at h; cases h.1
  · rw [ha] at hr; cases hr
  · rw [ha] at hr; cases hr
  · rw [ha] at hr; cases hr
  · rw [ha] at hr; cases hr; exact e

/-- When no command runs, the step completes the oldest held access. -/
theorem step_of_held {s : State} {a : Access} {rest : List Access} (hn : runState s ≠ .busy)
    (hh : s.held = a :: rest) : step s = .next (completeAccess { s with held := rest } a) := by
  rcases step_cases s with ⟨-, a', r, hr, e⟩ | ⟨h | h, -⟩
  · rw [hh] at hr; cases hr; exact e
  · exact absurd h hn
  · rw [hh] at h; cases h

/-- R96: a write in `FAULT` does nothing. -/
theorem writeReg_of_fault {s : State} (h : runState s = .fault) (r : HostReg) (v : Word) :
    writeReg s r v = s := by
  unfold writeReg; rw [h]

/-- R13, R18: a write in `IDLE` or `DONE` stores. -/
theorem writeReg_of_ready {s : State} (hf : runState s ≠ .fault) (hb : runState s ≠ .busy) (r : HostReg)
    (v : Word) : writeReg s r v = storeReg s r v := by
  unfold writeReg; split <;> simp_all

/-- R19: when no command runs, an access completes at once. -/
theorem accessTurn_of_not_busy {s : State} (h : runState s ≠ .busy) (a : Access) :
    accessTurn s a = completeAccess s a := by
  unfold accessTurn; rw [if_neg fun hh => h hh.1]

/-- R101: a sequencer that runs no command changes nothing. -/
theorem sequence_of_idle {s : State} (h : s.phase = .pIdle) :
    sequencePhase s = .next s ∧ sequenceCommand s = .next s := by
  have phase : sequencePhase s = .next s := by unfold sequencePhase; rw [if_pos h]
  exact ⟨phase, by unfold sequenceCommand; rw [if_neg (by rw [h]; decide), phase]⟩

/-- An idle sequencer stays idle however many phases it is given. -/
theorem runPhases_of_idle (n : Nat) {s : State} (h : s.phase = .pIdle) : runPhases n s = .next s := by
  induction n with
  | zero => rfl
  | succ n ih => simp only [runPhases, (sequence_of_idle h).1, ih]

end Sys2Proof.Machine
end

