-- ==== Sys2Proof/Laws/Memory.lean ====
section
/-! SUPPORT. The buffer: reading after the host has placed bytes, and the canonical form, which every
operation on the buffer keeps. -/

namespace Sys2Proof.Machine

/-- A byte just placed is read back; every other offset reads as before. -/
theorem byteAt_putByte (m : Memory) (off a : Nat) (b : Byte) :
    byteAt (putByte off b m) a = if off = a then some b else byteAt m a := by
  induction m with
  | nil => simp [putByte, byteAt]
  | cons cell rest ih =>
    obtain ⟨c, d⟩ := cell
    unfold putByte
    split
    · simp [byteAt]
    · split
      · next h => subst h; simp only [byteAt]; split <;> rfl
      · next h =>
        simp only [byteAt, ih]
        by_cases hca : c = a
        · subst hca; simp [h]
        · simp [hca]

/-- The canonical form, one cell at a time. -/
theorem wf_cons (a : Nat) (b : Byte) (m : Memory) :
    Memory.wf ((a, b) :: m) = true ↔
      a < offsetLimit ∧ (∀ c d r, m = (c, d) :: r → a < c) ∧ m.wf = true := by
  cases m with
  | nil => simp [Memory.wf]
  | cons cell rest => obtain ⟨c, d⟩ := cell; simp [Memory.wf]; tauto

/-- In the canonical form an unlisted lower offset has no byte. -/
theorem byteAt_eq_none_of_lt {m : Memory} (h : m.wf = true) {a off : Nat} {b : Byte} {r : Memory}
    (hm : m = (a, b) :: r) (hlt : off < a) : byteAt m off = none := by
  induction m generalizing a b r with
  | nil => cases hm
  | cons cell rest ih =>
    cases hm
    obtain ⟨-, hnext, hrest⟩ := (wf_cons a b rest).mp h
    simp only [byteAt, Nat.ne_of_gt hlt, if_false]
    cases rest with
    | nil => rfl
    | cons cell' rest' =>
      exact ih hrest rfl (Nat.lt_trans hlt (hnext _ _ _ rfl))

/-- The first offset of a list after a byte is placed. -/
theorem putByte_head (m : Memory) (off : Nat) (b : Byte) {c : Nat} {d : Byte} {r : Memory}
    (h : putByte off b m = (c, d) :: r) :
    c = off ∨ ∃ d' r', m = (c, d') :: r' := by
  cases m with
  | nil => simp [putByte] at h; exact .inl h.1.1.symm
  | cons cell rest =>
    obtain ⟨a, e⟩ := cell
    unfold putByte at h
    split at h
    · cases h; exact .inl rfl
    · split at h
      · cases h; exact .inl rfl
      · cases h; exact .inr ⟨_, _, rfl⟩

/-- Placing a byte keeps the canonical form. -/
theorem wf_putByte {m : Memory} (h : m.wf = true) {off : Nat} (hoff : off < offsetLimit) (b : Byte) :
    (putByte off b m).wf = true := by
  induction m with
  | nil => simp [putByte, Memory.wf, hoff]
  | cons cell rest ih =>
    obtain ⟨a, c⟩ := cell
    obtain ⟨ha, hnext, hrest⟩ := (wf_cons a c rest).mp h
    unfold putByte
    split
    · next hlt =>
      refine (wf_cons _ _ _).mpr ⟨hoff, ?_, h⟩
      intro c' d' r' heq
      cases heq
      exact hlt
    · next hnlt =>
      split
      · next heq => subst heq; exact (wf_cons _ _ _).mpr ⟨hoff, hnext, hrest⟩
      · next hne =>
        refine (wf_cons _ _ _).mpr ⟨ha, ?_, ih hrest⟩
        intro c' d' r' heq
        rcases putByte_head _ _ _ heq with rfl | ⟨d'', r'', rfl⟩
        · omega
        · exact hnext _ _ _ rfl

/-- Binding a list of bytes gives the canonical form. -/
theorem wf_cellsFrom (bytes : List Byte) (a : Nat) : (cellsFrom a bytes).wf = true := by
  induction bytes generalizing a with
  | nil => rfl
  | cons b bs ih =>
    unfold cellsFrom
    split
    · next hlt =>
      refine (wf_cons _ _ _).mpr ⟨hlt, ?_, ih (a + 1)⟩
      intro c d r heq
      cases bs with
      | nil => cases heq
      | cons b' bs' =>
        unfold cellsFrom at heq
        split at heq
        · cases heq; omega
        · cases heq
    · rfl

/-- A released buffer is in the canonical form. -/
theorem wf_nil : Memory.wf [] = true := rfl

/-- The bytes of a bound list, each at its offset. -/
theorem byteAt_cellsFrom (bytes : List Byte) (a off : Nat) (hlim : off < offsetLimit) (ha : a ≤ off) :
    byteAt (cellsFrom a bytes) off = bytes[off - a]? := by
  induction bytes generalizing a with
  | nil => simp [cellsFrom, byteAt]
  | cons b bs ih =>
    unfold cellsFrom
    rw [if_pos (by omega)]
    simp only [byteAt]
    split
    · next h => subst h; simp
    · next h =>
      rw [ih (a + 1) (by omega)]
      obtain ⟨k, hk⟩ : ∃ k, off - a = k + 1 := ⟨off - a - 1, by omega⟩
      rw [hk, List.getElem?_cons_succ]
      congr 1
      omega

end Sys2Proof.Machine
end

