-- ==== Sys2Proof/Laws/PerInstr.lean ====
section
/-! SUPPORT. What holds of every instruction as syntax, one lemma per constructor: its word is legal
(30_encoding.md R45). -/

namespace Sys2Proof.Laws.EncodedLegal

/-- R45: the fields of the instruction's word pass all four clauses. -/
def Statement (i : Instr) : Prop := (fieldsOf (encode i)).legal = true

theorem rotr (sh : BitVec 6) : Statement (.rotr sh) := by
  unfold Statement
  revert sh
  decide

theorem bswapB : Statement .bswapB := by unfold Statement; decide
theorem bswapH : Statement .bswapH := by unfold Statement; decide
theorem bswapW : Statement .bswapW := by unfold Statement; decide
theorem bswapD : Statement .bswapD := by unfold Statement; decide
theorem fetchB : Statement .fetchB := by unfold Statement; decide
theorem fetchH : Statement .fetchH := by unfold Statement; decide
theorem fetchW : Statement .fetchW := by unfold Statement; decide
theorem fetchD : Statement .fetchD := by unfold Statement; decide
theorem shmix : Statement .shmix := by unfold Statement; decide
theorem h128 : Statement .h128 := by unfold Statement; decide
theorem hl16 : Statement .hl16 := by unfold Statement; decide
theorem hl16m : Statement .hl16m := by unfold Statement; decide
theorem weak32 : Statement .weak32 := by unfold Statement; decide
theorem weak32b : Statement .weak32b := by unfold Statement; decide
theorem hash : Statement .hash := by unfold Statement; decide
theorem hashs : Statement .hashs := by unfold Statement; decide
theorem hashss : Statement .hashss := by unfold Statement; decide

end Sys2Proof.Laws.EncodedLegal
end

