-- ==== Sys2Proof/Tests/Slice0.lean ====
section
/-! SUPPORT. Small tests. Every expected value is from the spec: the worked examples of the command rules
and the vectors of 95_test_vectors.md, cited beside each test. -/

namespace Sys2Proof.Tests

open Sys2Proof.Machine

/-! ### Well-formedness: a word each clause of R45 refuses (95_test_vectors.md 2.11) -/

/-- Clause 1: `HASH` with bit 16 set, `0x00010010`. -/
theorem test_legal_refuses_zero_field : (fieldsOf 0x00010010).legal = false := by decide

/-- Clause 2: `op = 0x0a`, reserved. -/
theorem test_legal_refuses_reserved_op : (fieldsOf 0x0000000a).legal = false := by decide

/-- Clause 3: `HASH` with `sh = 1`, `0x00000110`. -/
theorem test_legal_refuses_shift_field : (fieldsOf 0x00000110).legal = false := by decide

/-- Clause 4: `ROTR #0` with `wd = 1`, `0x00004001`. -/
theorem test_legal_refuses_width_field : (fieldsOf 0x00004001).legal = false := by decide

/-- The field checks are the four clauses, one each. -/
theorem test_each_clause_refuses :
    (⟨0x10, 0, 0, 1⟩ : CmdFields).zeroOk = false ∧ (⟨0x13, 0, 0, 0⟩ : CmdFields).opOk = false ∧
    (⟨0x03, 63, 0, 0⟩ : CmdFields).shiftOk = false ∧ (⟨0x04, 0, 3, 0⟩ : CmdFields).widthOk = false := by
  decide

/-! ### Decoding: the words of 95_test_vectors.md 2.11 -/

theorem test_decode_rotr : decode 0x00000801 = .ok (.rotr 8) ∧ decode 0x00003f01 = .ok (.rotr 63) := by
  decide

theorem test_decode_bswap : decode 0x00000002 = .ok .bswapB ∧ decode 0x00004002 = .ok .bswapH ∧
    decode 0x00008002 = .ok .bswapW ∧ decode 0x0000c002 = .ok .bswapD := by decide

theorem test_decode_fetch : decode 0x00000003 = .ok .fetchB ∧ decode 0x00004003 = .ok .fetchH ∧
    decode 0x00008003 = .ok .fetchW ∧ decode 0x0000c003 = .ok .fetchD := by decide

theorem test_decode_mixing : decode 0x00000004 = .ok .shmix ∧ decode 0x00000005 = .ok .h128 ∧
    decode 0x00000006 = .ok .hl16 ∧ decode 0x00000007 = .ok .hl16m := by decide

theorem test_decode_weak : decode 0x00000008 = .ok .weak32 ∧ decode 0x00000009 = .ok .weak32b := by
  decide

theorem test_decode_digests : decode 0x00000010 = .ok .hash ∧ decode 0x00000011 = .ok .hashs ∧
    decode 0x00000012 = .ok .hashss := by decide

/-- The illegal words of 2.11 that break clauses 1 and 2. -/
theorem test_decode_rejects_op_and_zero :
    decode 0x00000000 = .error .reservedOp ∧ decode 0x0000000f = .error .reservedOp ∧
    decode 0x00000013 = .error .reservedOp ∧ decode 0x000000ff = .error .reservedOp ∧
    decode 0x80000001 = .error .zeroFieldSet ∧ decode 0xffffffff = .error .zeroFieldSet := by decide

/-- The illegal words of 2.11 that break clauses 3 and 4. -/
theorem test_decode_rejects_fields :
    decode 0x00000102 = .error .shiftFieldSet ∧ decode 0x00003f03 = .error .shiftFieldSet ∧
    decode 0x00004001 = .error .widthFieldSet ∧ decode 0x0000c004 = .error .widthFieldSet := by decide

theorem test_encode_words : encode (.rotr 37) = 0x00002501 ∧ encode .bswapD = 0x0000c002 ∧
    encode .fetchW = 0x00008003 ∧ encode .weak32b = 0x00000009 ∧ encode .hashss = 0x00000012 := by decide

theorem test_decodeTableWord : decodeTableWord 32 0x4003 = some .fetchH := by decide

/-! ### A small state -/

/-- A state with these operands, the buffer bound to `bytes` and `LEN` their count (R48, `BUF`). -/
def load (bytes : List Byte) (o : OpFile) : State :=
  { State.reset with ops := o, buf := cellsFrom 0 bytes, len := BitVec.ofNat 64 bytes.length }

/-- `PAT(n)` of 95_test_vectors.md. -/
def pat (n : Nat) : List Byte := (List.range n).map (BitVec.ofNat 8)

/-- `B40` of 95_test_vectors.md. -/
def b40 : List Byte := (List.range 40).map (fun i => BitVec.ofNat 8 (i + 1))

/-- `RES[0]` of a next state that ended `DONE`. -/
def doneRes (r : Host.Outcome State Fault Refusal) : Option Word :=
  match r with
  | .next t => if runState t = .done then some t.res0 else none
  | .fault _ => none
  | .refused _ => none

/-- `STATUS` and `FINFO` of a next state. -/
def statusOf (r : Host.Outcome State Fault Refusal) : Option (BitVec 32 × Word) :=
  match r with
  | .next t => some (t.status, t.finfo)
  | .fault _ => none
  | .refused _ => none

/-- `RES[1]` of a next state. -/
def res1Of (r : Host.Outcome State Fault Refusal) : Option Word :=
  match r with
  | .next t => some t.res1
  | .fault _ => none
  | .refused _ => none

def zeroOps : OpFile := ⟨0, 0, 0, 0, 0, 0⟩

def withOp0 (v : Word) : OpFile := { zeroOps with o0 := v }

/-! ### Primitives (95_test_vectors.md 2.1 to 2.6) -/

theorem test_rotr_8 : doneRes (exec (.rotr 8) (load [] (withOp0 0x0123456789abcdef))) =
    some 0xef0123456789abcd := by decide +kernel

theorem test_rotr_0 : doneRes (exec (.rotr 0) (load [] (withOp0 0x0123456789abcdef))) =
    some 0x0123456789abcdef := by decide +kernel

theorem test_bswap_widths :
    doneRes (exec .bswapD (load [] (withOp0 0x0123456789abcdef))) = some 0xefcdab8967452301 ∧
    doneRes (exec .bswapW (load [] (withOp0 0x0123456789abcdef))) = some 0x00000000efcdab89 ∧
    doneRes (exec .bswapH (load [] (withOp0 0x0123456789abcdef))) = some 0x000000000000efcd ∧
    doneRes (exec .bswapB (load [] (withOp0 0x0123456789abcdef))) = some 0x00000000000000ef := by
  decide +kernel

theorem test_fetch_misaligned :
    doneRes (exec .fetchD (load b40 (withOp0 3))) = some 0x0b0a090807060504 ∧
    doneRes (exec .fetchW (load b40 (withOp0 36))) = some 0x0000000028272625 ∧
    doneRes (exec .fetchH (load b40 (withOp0 38))) = some 0x0000000000002827 ∧
    doneRes (exec .fetchB (load b40 (withOp0 39))) = some 0x0000000000000028 := by decide +kernel

/-- A range fault at `LEN - n + 1`, and no wrap of `off + n` (2.3). Status `0x13` less the `BUSY` start:
`exec` begins with `STATUS = 0` here. -/
theorem test_fetch_range :
    statusOf (exec .fetchD (load b40 (withOp0 33))) = some (0x00000013, 33) ∧
    statusOf (exec .fetchW (load b40 (withOp0 37))) = some (0x00000013, 37) ∧
    statusOf (exec .fetchH (load b40 (withOp0 39))) = some (0x00000013, 39) ∧
    statusOf (exec .fetchB (load b40 (withOp0 40))) = some (0x00000013, 40) ∧
    statusOf (exec .fetchD (load b40 (withOp0 0xffffffffffffffff))) =
      some (0x00000013, 0xffffffffffffffff) := by decide +kernel

theorem test_shmix : doneRes (exec .shmix (load [] (withOp0 0x0123456789abcdef))) =
    some 0x0123456789abcfa9 ∧
    doneRes (exec .shmix (load [] (withOp0 0xffffffffffffffff))) = some 0xfffffffffffe0000 := by
  decide +kernel

theorem test_h128 :
    doneRes (exec .h128 (load [] ⟨1, 2, 0, 0, 0, 0⟩)) = some 0x86668a560ec835a1 ∧
    doneRes (exec .h128 (load [] ⟨2, 1, 0, 0, 0, 0⟩)) = some 0xd1aa4377fbb56312 := by decide +kernel

theorem test_hl16 :
    doneRes (exec .hl16 (load [] ⟨0x0123456789abcdef, 0xfedcba9876543210, 0, 0, 0, 0⟩)) =
      some 0x79d79d1de9fa18dd := by decide +kernel

theorem test_hl16m :
    doneRes (exec .hl16m (load [] ⟨1, 2, 0x9ae16a3b2f904057, 0, 0, 0⟩)) = some 0x8cacf058574b93ed ∧
    doneRes (exec .hl16m (load [] ⟨1, 2, 1, 0, 0, 0⟩)) = some 1 := by decide +kernel

theorem test_weak32 :
    doneRes (exec .weak32 (load [] ⟨1, 2, 3, 4, 5, 6⟩)) = some 0x000000000000000f ∧
    res1Of (exec .weak32 (load [] ⟨1, 2, 3, 4, 5, 6⟩)) = some 0x0000800000b00006 := by decide +kernel

theorem test_weak32b :
    doneRes (exec .weak32b (load b40 ⟨8, 0, 0, 0, 5, 6⟩)) = some 0x706c6864605c5859 ∧
    res1Of (exec .weak32b (load b40 ⟨8, 0, 0, 0, 5, 6⟩)) = some 0xa5647b6221311fe3 := by decide +kernel

/-- `WEAK32B` faults at the lowest failing read: 33 for `OP[0] = 9`, 16 for `LEN = 20` (2.6). -/
theorem test_weak32b_range :
    statusOf (exec .weak32b (load b40 ⟨9, 0, 0, 0, 5, 6⟩)) = some (0x00000013, 33) ∧
    statusOf (exec .weak32b (load (pat 20) ⟨0, 0, 0, 0, 5, 6⟩)) = some (0x00000013, 16) := by
  decide +kernel

/-! ### Digests (95_test_vectors.md 2.7, 2.8), one length at each end of a bucket -/

theorem test_hash_short :
    doneRes (exec .hash (load [] zeroOps)) = some 0x9ae16a3b2f90404f ∧
    doneRes (exec .hash (load [0x61] zeroOps)) = some 0xb3454265b6df75e3 ∧
    doneRes (exec .hash (load (pat 3) zeroOps)) = some 0x94a13d22e9eba49a ∧
    doneRes (exec .hash (load (pat 4) zeroOps)) = some 0x82bffd898958e540 ∧
    doneRes (exec .hash (load (pat 7) zeroOps)) = some 0xa2e0bff20db0a6a1 ∧
    doneRes (exec .hash (load (pat 8) zeroOps)) = some 0xad5a13e1e8e93b98 ∧
    doneRes (exec .hash (load (pat 16) zeroOps)) = some 0x0efd25a0a34156d4 ∧
    doneRes (exec .hash (load (pat 17) zeroOps)) = some 0xbbb6a6f8f20d1f1c ∧
    doneRes (exec .hash (load (pat 32) zeroOps)) = some 0x1a9d8199972cdf49 ∧
    doneRes (exec .hash (load (pat 33) zeroOps)) = some 0x46e1378cbc22daba ∧
    doneRes (exec .hash (load (pat 64) zeroOps)) = some 0xe99ab80f5ec7dca5 := by decide +kernel

theorem test_hash_long :
    doneRes (exec .hash (load (pat 65) zeroOps)) = some 0xac589c990483dd2e ∧
    doneRes (exec .hash (load (pat 128) zeroOps)) = some 0x10b153630af1f395 ∧
    doneRes (exec .hash (load (pat 200) zeroOps)) = some 0xf4d24e8c7493c3d8 := by decide +kernel

/-- The literal reading of the truncation, for `LEN` a multiple of 64 (2.7, C5). -/
theorem test_hash64_literal :
    digestOf .literal (cellsFrom 0 (pat 128)) 128 = .ok 0x524852f8e8f9c4f0 := by decide +kernel

theorem test_hashs :
    doneRes (exec .hashs (load [0x61, 0x62, 0x63] ⟨0, 0x1234, 0, 0, 0, 0⟩)) =
      some 0x613c8921333da2c8 ∧
    doneRes (exec .hashs (load (pat 65) ⟨0, 7, 0, 0, 0, 0⟩)) = some 0xd3ea48c4c6ea4cdf := by
  decide +kernel

theorem test_hashss :
    doneRes (exec .hashss (load [0x61, 0x62, 0x63] ⟨1, 2, 0, 0, 0, 0⟩)) = some 0x9f37d4106a646448 ∧
    doneRes (exec .hashss (load [] ⟨0xffffffffffffffff, 0, 0, 0, 0, 0⟩)) =
      some 0x67db5837b2f7223c := by decide +kernel

/-- The trace of 2.7 for `LEN = 65`: priming, and the block step. -/
theorem test_pipeline_trace :
    primePipeline .ref (cellsFrom 0 (pat 65)) 65 = .ok
      ⟨0x462cf4f64eb25c3b, 0x48464442403e3c3a, 0x12e28302951222d4,
       ⟨0x504c4844403c3875, 0x2c72c1ef2eff2abd⟩, ⟨0xcda5c376bf93e761, 0xfdc15a8ce96cb310⟩, 0, 64⟩ ∧
    blockStep (cellsFrom 0 (pat 65)) 65
      ⟨0x462cf4f64eb25c3b, 0x48464442403e3c3a, 0x12e28302951222d4,
       ⟨0x504c4844403c3875, 0x2c72c1ef2eff2abd⟩, ⟨0xcda5c376bf93e761, 0xfdc15a8ce96cb310⟩, 0, 64⟩ =
      .ok ⟨0xeb3febd9cb8a8bf4, 0x282ddfe1684e3b27, 0xbd0fe24d0f6cd30c,
       ⟨0x76deac4c35771117, 0x022979bafdb5d921⟩, ⟨0xb5ca0b2771aff3b4, 0x8e076f5bcccead55⟩, 64, 0⟩ := by
  decide +kernel

/-! ### The step (95_test_vectors.md 2.12, 3.5) -/

/-- An illegal word: `HASH` with `sh = 1`; `STATUS = 0x23`, `FINFO` the word (3.5). -/
theorem test_step_illegal :
    statusOf (step (State.reset.withFetchWord 32 0x110)) = some (0x00000023, 0x110) := by decide +kernel

/-- The first command after reset: `HASH` of the empty buffer is `K2` (1.1), `STATUS = 2`. -/
theorem test_step_hash_after_reset :
    doneRes (step (State.reset.withFetchWord 32 0x10)) = some 0x9ae16a3b2f90404f ∧
    statusOf (step (State.reset.withFetchWord 32 0x10)) = some (0x00000002, 0) := by decide +kernel

/-- An unbacked offset below `LEN` stops the machine (U6). -/
theorem test_step_unbacked :
    goesOn (exec .hash { State.reset with len := 1 }) = false := by decide +kernel

/-- `STATUS` reads as 1 while a command runs (2.12). -/
theorem test_busy_status :
    readReg (startCommand State.reset 0x10) .status = 1 := by decide +kernel

/-- Assembler text (R47), in either case. -/
theorem test_assemble : assemble "rotr #8" = some 0x00000801 ∧ assemble "FETCH.W" = some 0x00008003 ∧
    assemble "NOP" = none := by decide +kernel

/-! ### Witnesses: for each statement of Obligations.lean with hypotheses, states and operands that meet them
together, at the ends of their ranges. -/

/-- Every offset below `LEN` of a loaded state is backed. -/
theorem backed_load (bytes : List Byte) (o : OpFile) (h : bytes.length < 2 ^ 64) :
    Backed (load bytes o) := by
  intro off hoff
  have hn : (load bytes o).len.toNat = bytes.length := by
    simp only [load, BitVec.toNat_ofNat]; exact Nat.mod_eq_of_lt h
  rw [hn] at hoff
  refine ⟨bytes[off], ?_⟩
  have := byteAt_cellsFrom bytes 0 off (by unfold offsetLimit; omega) (by omega)
  simpa [load, List.getElem?_eq_getElem hoff] using this

/-- The bytes of a loaded state from `off` on, within `LEN`, are bound. -/
theorem backedAt_load (bytes : List Byte) (o : OpFile) {off n : Nat} (h : bytes.length < 2 ^ 64)
    (hn : off + n ≤ (load bytes o).len.toNat) : BackedAt (load bytes o).buf off n :=
  fun k hk => backed_load bytes o h (off + k) (by omega)

/-- A loaded state in which the command `c` has just been started, with these turns to come. -/
def started (bytes : List Byte) (o : OpFile) (c : CmdWord) (turns : List Turn) : State :=
  { startCommand (load bytes o) c with agenda := turns }

/-- A state that an illegal word has put in `FAULT`, with these turns to come. -/
def faulted (turns : List Turn) : State :=
  { load [] zeroOps with status := 0x23, cmd := 0x110, finfo := 0x110, agenda := turns }

/-- No instruction is decoded from `0x00000110`. -/
theorem no_decode_0x110 (i : Instr) : decode 0x00000110 ≠ .ok i := by
  rw [show decode 0x00000110 = .error .shiftFieldSet by decide]; exact fun h => nomatch h

theorem witness_LegalWordsAreTheDecodedOnes :
    (∀ i, decode 0x00000110 ≠ .ok i) ∧ (started [] zeroOps 0x110 []).phase = .pDecode ∧
    (started [] zeroOps 0x110 []).cmd = 0x110 := ⟨no_decode_0x110, rfl, rfl⟩

theorem witness_StepRunsDecodedCommand : ∀ turns ∈ [[], [Turn.command, .phase], [.await]],
    runState (started [] zeroOps 0x10 turns) = .busy ∧ (started [] zeroOps 0x10 turns).phase = .pDecode ∧
    decode (started [] zeroOps 0x10 turns).cmd = .ok .hash ∧ Instr.hash.wellFormed = true ∧
    (started [] zeroOps 0x10 turns).agenda = turns := by decide

/-- From `IDLE` and from `DONE`. -/
theorem witness_WrittenCommandRunsNext : ∀ status ∈ [(0 : BitVec 32), 2],
    ∃ s : State, s.status = status ∧ (runState s = .idle ∨ runState s = .done) ∧ s.held = [] ∧
      s.agenda = .host (.access (.write .cmd ((encode .hash).setWidth 64))) :: .command :: [] := by
  intro status h
  refine ⟨{ load [] zeroOps with status := status, agenda := _ }, rfl, ?_, rfl, rfl⟩
  show statusState status = .idle ∨ statusState status = .done
  simp only [List.mem_cons, List.not_mem_nil, or_false] at h
  rcases h with rfl | rfl <;> decide

theorem witness_IllegalWordFaultsAtDecode :
    runState (started [] zeroOps 0x110 []) = .busy ∧ (started [] zeroOps 0x110 []).phase = .pDecode ∧
    (∀ i, decode (started [] zeroOps 0x110 []).cmd ≠ .ok i) ∧ (started [] zeroOps 0x110 []).agenda = [] :=
  ⟨by decide, rfl, no_decode_0x110, rfl⟩

theorem witness_RotateIsCircular :
    (0 : BitVec 6) = 0 ∧ (63 : BitVec 6) ≠ 0 ∧ (1 : BitVec 6) ≠ 0 ∧ 0 < 64 ∧ 63 < 64 := by decide

theorem witness_RotrRotatesOperand : 0 < 64 ∧ 63 < 64 := by decide

theorem witness_ByteSwapReversesAndUndoes :
    (0xff : Word).toNat < 2 ^ (8 * 1) ∧ (0xffff : Word).toNat < 2 ^ (8 * 2) ∧
    (0xffffffff : Word).toNat < 2 ^ (8 * 4) ∧ (0xffffffffffffffff : Word).toNat < 2 ^ (8 * 8) := by decide

theorem witness_BswapSwapsOperand :
    (Instr.bswapB, 1) ∈ [(Instr.bswapB, 1), (.bswapH, 2), (.bswapW, 4), (.bswapD, 8)] ∧
    (Instr.bswapD, 8) ∈ [(Instr.bswapB, 1), (.bswapH, 2), (.bswapW, 4), (.bswapD, 8)] := by decide

/-- The last offset in range, and offset 0, at each width. -/
theorem witness_FetchReadsLittleEndian : ∀ n ∈ [1, 2, 4, 8], ∀ off ∈ [0, 40 - n],
    (load b40 (withOp0 (BitVec.ofNat 64 off))).ops.o0.toNat + n ≤
      (load b40 (withOp0 (BitVec.ofNat 64 off))).len.toNat ∧
    BackedAt (load b40 (withOp0 (BitVec.ofNat 64 off))).buf
      (load b40 (withOp0 (BitVec.ofNat 64 off))).ops.o0.toNat n := by
  intro n hn off hoff
  have hr : (load b40 (withOp0 (BitVec.ofNat 64 off))).ops.o0.toNat + n ≤
      (load b40 (withOp0 (BitVec.ofNat 64 off))).len.toNat := by revert n off; decide
  exact ⟨hr, backedAt_load _ _ (by decide) hr⟩

/-- The first offset out of range at each width, and the highest offset there is. -/
theorem witness_FetchOutOfRangeFaults : ∀ n ∈ [1, 2, 4, 8], ∀ off ∈ [40 - n + 1, 2 ^ 64 - 1],
    (load b40 (withOp0 (BitVec.ofNat 64 off))).len.toNat <
      (load b40 (withOp0 (BitVec.ofNat 64 off))).ops.o0.toNat + n := by decide

theorem witness_ShmixMixesTopBits : ∃ s : State, s.ops.o0 = 0xffffffffffffffff :=
  ⟨load [] (withOp0 0xffffffffffffffff), rfl⟩

theorem witness_ShiftMixUndoesItself : (0x7fffffffffff : Word).toNat < 2 ^ 47 := by decide

/-- `OP[0] = 8` is the last offset in range for `LEN = 40`. -/
theorem witness_Weak32bReadsFourWords : ∀ off ∈ [0, 8],
    (load b40 (withOp0 (BitVec.ofNat 64 off))).ops.o0.toNat + 32 ≤
      (load b40 (withOp0 (BitVec.ofNat 64 off))).len.toNat ∧
    BackedAt (load b40 (withOp0 (BitVec.ofNat 64 off))).buf
      (load b40 (withOp0 (BitVec.ofNat 64 off))).ops.o0.toNat 32 := by
  intro off hoff
  have hr : (load b40 (withOp0 (BitVec.ofNat 64 off))).ops.o0.toNat + 32 ≤
      (load b40 (withOp0 (BitVec.ofNat 64 off))).len.toNat := by revert off; decide
  exact ⟨hr, backedAt_load _ _ (by decide) hr⟩

/-- The first failing read is each of the four: `OP[0]` = 33, 25, 17, 9 for `LEN = 40`. -/
theorem witness_Weak32bFaultsAtLowestRead : ∀ k, k < 4 →
    (∀ j, j < k → (33 - 8 * k) + 8 * j + 8 ≤ (load b40 (withOp0 (BitVec.ofNat 64 (33 - 8 * k)))).len.toNat) ∧
    (load b40 (withOp0 (BitVec.ofNat 64 (33 - 8 * k)))).ops.o0.toNat = 33 - 8 * k ∧
    (load b40 (withOp0 (BitVec.ofNat 64 (33 - 8 * k)))).len.toNat < (33 - 8 * k) + 8 * k + 8 ∧
    BackedAt (load b40 (withOp0 (BitVec.ofNat 64 (33 - 8 * k)))).buf (33 - 8 * k) (8 * k) := by
  intro k hk
  have hl : (load b40 (withOp0 (BitVec.ofNat 64 (33 - 8 * k)))).len.toNat = 40 := rfl
  refine ⟨fun j hj => by omega, ?_, by omega, backedAt_load _ _ (by decide) (by omega)⟩
  revert k; decide

theorem witness_HashOfEmptyBuffer : (load [] zeroOps).len = 0 := rfl

/-- A backed buffer at each end of each bucket of R70. -/
theorem witness_HashBuckets : ∀ n ∈ [1, 3, 4, 7, 8, 16, 17, 32, 33, 64, 65, 128, 129],
    (load (pat n) zeroOps).len.toNat = n ∧ Backed (load (pat n) zeroOps) := by
  intro n hn
  have hl : (pat n).length < 2 ^ 64 := by
    simp only [pat, List.length_map, List.length_range]
    exact (by decide : ∀ n ∈ [1, 3, 4, 7, 8, 16, 17, 32, 33, 64, 65, 128, 129], n < 2 ^ 64) n hn
  refine ⟨?_, backed_load _ _ hl⟩
  simp only [load, BitVec.toNat_ofNat, Nat.mod_eq_of_lt hl]
  simp [pat]

/-- The buckets of 1 to 3 bytes, and the backed states the other digest statements ask for. -/
theorem witness_HashOfOneToThreeBytes : ∀ n ∈ [1, 3], 1 ≤ n ∧ n ≤ 3 ∧
    (load (pat n) zeroOps).len.toNat = n ∧ Backed (load (pat n) zeroOps) := fun n hn =>
  ⟨by revert n; decide, by revert n; decide, witness_HashBuckets n (by revert n; decide)⟩

theorem witness_HashOfFourToSevenBytes : ∀ n ∈ [4, 7], 4 ≤ n ∧ n ≤ 7 ∧
    (load (pat n) zeroOps).len.toNat = n ∧ Backed (load (pat n) zeroOps) := fun n hn =>
  ⟨by revert n; decide, by revert n; decide, witness_HashBuckets n (by revert n; decide)⟩

theorem witness_HashOfEightToSixteenBytes : ∀ n ∈ [8, 16], 8 ≤ n ∧ n ≤ 16 ∧
    (load (pat n) zeroOps).len.toNat = n ∧ Backed (load (pat n) zeroOps) := fun n hn =>
  ⟨by revert n; decide, by revert n; decide, witness_HashBuckets n (by revert n; decide)⟩

theorem witness_HashOfSeventeenToThirtyTwoBytes : ∀ n ∈ [17, 32], 17 ≤ n ∧ n ≤ 32 ∧
    (load (pat n) zeroOps).len.toNat = n ∧ Backed (load (pat n) zeroOps) := fun n hn =>
  ⟨by revert n; decide, by revert n; decide, witness_HashBuckets n (by revert n; decide)⟩

theorem witness_HashOfThirtyThreeToSixtyFourBytes : ∀ n ∈ [33, 64], 33 ≤ n ∧ n ≤ 64 ∧
    (load (pat n) zeroOps).len.toNat = n ∧ Backed (load (pat n) zeroOps) := fun n hn =>
  ⟨by revert n; decide, by revert n; decide, witness_HashBuckets n (by revert n; decide)⟩

theorem witness_PrimingFromTheLastBytes : ∀ n ∈ [65, 128], 65 ≤ n ∧
    (load (pat n) zeroOps).len.toNat = n ∧ Backed (load (pat n) zeroOps) := fun n hn =>
  ⟨by revert n; decide, witness_HashBuckets n (by revert n; decide)⟩

/-- The first block, and a last block that ends at `LEN`. -/
theorem witness_BlockStepUpdates : ∀ pos ∈ [(0 : Word), 64], ∃ h : Hidden, h.pos = pos ∧
    h.pos.toNat + 64 ≤ (load (pat 128) zeroOps).len.toNat ∧ Backed (load (pat 128) zeroOps) := by
  intro pos hpos
  refine ⟨⟨1, 2, 3, ⟨4, 5⟩, ⟨6, 7⟩, pos, 128⟩, rfl, ?_, (witness_HashBuckets 128 (by decide)).2⟩
  rw [(witness_HashBuckets 128 (by decide)).1]
  simp only [List.mem_cons, List.not_mem_nil, or_false] at hpos
  rcases hpos with rfl | rfl <;> decide

theorem witness_HashStreamsWholeBlocks : ∀ n ∈ [65, 128, 129], 64 < n ∧
    (load (pat n) zeroOps).len.toNat = n ∧ Backed (load (pat n) zeroOps) := fun n hn =>
  ⟨by revert n; decide, witness_HashBuckets n (by revert n; decide)⟩

theorem witness_SeededDigests : Backed (load (pat 65) ⟨1, 2, 0, 0, 0, 0⟩) ∧ Backed (load [] zeroOps) :=
  ⟨backed_load _ _ (by decide), backed_load _ _ (by decide)⟩

/-- A digest command that ends in a next state, and one that stops at an unbacked byte. -/
theorem witness_SeedCompositionLaw :
    (∃ t, exec .hashs (load [0x61] ⟨0, 7, 0, 0, 0, 0⟩) = .next t) ∧
    exec .hashs { load [] zeroOps with len := 1 } = .fault (.unbackedByte 0) := ⟨⟨_, rfl⟩, rfl⟩

theorem witness_DigestsStayInRange : isDigest .hashss = true ∧
    (∃ t, exec .fetchB (load [] zeroOps) = .next t ∧ t.status.extractLsb' 0 2 = 3) :=
  ⟨rfl, _, rfl, by decide⟩

theorem witness_TruncationRules :
    (∃ h, primePipeline .ref (cellsFrom 0 (pat 65)) 65 = .ok h) ∧
    65 ≤ (65 : Word).toNat ∧ (65 : Word).toNat % 64 ≠ 0 ∧ 65 ≤ (128 : Word).toNat ∧
    (128 : Word).toNat % 64 = 0 := by
  refine ⟨⟨_, test_pipeline_trace.1⟩, ?_⟩
  decide

/-- In range up to the last byte, and out of range from the next offset on; no offset for `LEN = 0`. -/
theorem witness_RangeCheckIsUnbounded :
    39 + 1 ≤ (40 : Word).toNat ∧ (40 : Word).toNat < 40 + 1 ∧ (40 : Word).toNat < 2 ^ 64 + 1 ∧
    (0 : Word) = 0 ∧ 1 ≤ 1 := by decide

theorem witness_MixedWidthReadsAgree : ∀ a ∈ [1, 2, 4],
    a < 8 ∧ a ∈ [1, 2, 4, 8] ∧ memRead (cellsFrom 0 b40) 40 32 8 = .ok 0x2827262524232221 := by decide +kernel

theorem witness_OnlyTheHostChangesTheBuffer :
    ∃ t, step { load [] zeroOps with agenda := [.host (.poke 3 0x61)] } = .next t ∧ t.buf = [(3, 0x61)] :=
  ⟨_, rfl, rfl⟩

theorem witness_BufferMoveRefusedWhileBusy :
    ∀ m ∈ [HostMove.bind [0x61], .poke 0 0x61, .release],
      runState (started [] zeroOps 0x10 [.host m]) = .busy ∧
      (started [] zeroOps 0x10 [.host m]).agenda = .host m :: [] ∧ (∀ a, m ≠ .access a) ∧ m ≠ .reset := by
  intro m hm
  simp only [List.mem_cons, List.not_mem_nil, or_false] at hm
  rcases hm with rfl | rfl | rfl <;> exact ⟨by decide, rfl, by simp, by simp⟩

/-- Two states that differ in a register, a byte and a length the command does not read; and one pair for a
command that reads the buffer, with bytes beyond `LEN` that differ. -/
theorem witness_OutcomeDependsOnInputsOnly :
    ((∀ k ∈ readsOps .shmix, readOp (load [] ⟨5, 1, 0, 0, 0, 0⟩).ops k =
        readOp (load b40 ⟨5, 2, 0, 0, 0, 0⟩).ops k) ∧ readsBuffer .shmix = false ∧
      ∃ t, exec .shmix (load [] ⟨5, 1, 0, 0, 0, 0⟩) = .next t) ∧
    ((∀ k ∈ readsOps .hash, readOp (load [0x61] zeroOps).ops k =
        readOp { load [0x61, 0x62] zeroOps with len := 1 }.ops k) ∧ readsBuffer .hash = true ∧
      (load [0x61] zeroOps).len = { load [0x61, 0x62] zeroOps with len := 1 }.len ∧
      (∀ off, off < 1 → byteAt (load [0x61] zeroOps).buf off =
        byteAt { load [0x61, 0x62] zeroOps with len := 1 }.buf off) ∧
      ∃ t, exec .hash (load [0x61] zeroOps) = .next t) :=
  ⟨⟨by decide, rfl, _, rfl⟩, ⟨by decide, rfl, rfl, by decide, _, rfl⟩⟩

/-- A command that ends `DONE`, and one that ends in the fault state. -/
theorem witness_CommandsKeepTheirInputs :
    (∃ t, exec .weak32 (load [] zeroOps) = .next t) ∧ ∃ t, exec .fetchB (load [] zeroOps) = .next t :=
  ⟨⟨_, rfl⟩, _, rfl⟩

theorem witness_CommandsEndDoneOrFault :
    (∃ t, exec .weak32 (load [] zeroOps) = .next t ∧ runState t = .done) ∧
    ∃ t, exec .fetchB (load [] zeroOps) = .next t ∧ runState t = .fault :=
  ⟨⟨_, rfl, by decide⟩, _, rfl, by decide⟩

theorem witness_OnlyPairCommandsWriteSecondResult :
    ∃ t, exec .hash (load [] zeroOps) = .next t ∧ t.status.extractLsb' 0 2 = 2 ∧
      Instr.hash ≠ .weak32 ∧ Instr.hash ≠ .weak32b := ⟨_, rfl, by decide⟩

/-- A primitive command, and a digest command with `LEN <= 64`. -/
theorem witness_HiddenRegistersOnlyInPipeline :
    (∃ t, exec .shmix (load (pat 65) zeroOps) = .next t ∧ t.status.extractLsb' 0 2 = 2 ∧
      isDigest .shmix = false) ∧
    ∃ t, exec .hash (load [] zeroOps) = .next t ∧ t.status.extractLsb' 0 2 = 2 ∧
      (load [] zeroOps).len.toNat ≤ 64 :=
  ⟨⟨_, rfl, by decide, rfl⟩, _, rfl, by decide⟩

theorem witness_RegisterAccessTable :
    runState (load [] zeroOps) = .idle ∧ runState { load [] zeroOps with status := 2 } = .done ∧
    runState (faulted []) = .fault ∧ 11 < 12 := by
  decide

theorem witness_BusyHoldsAccesses : ∀ a ∈ [Access.read .status, .read .len, .write .cmd 0x10],
    runState (started [] zeroOps 0x10 [.host (.access a)]) = .busy ∧
    (started [] zeroOps 0x10 [.host (.access a)]).agenda = .host (.access a) :: [] := by
  intro a h
  exact ⟨by decide +revert, rfl⟩

/-- A held read, and a held write of each kind, when the command has ended `DONE`, and in `FAULT`. -/
theorem witness_HeldAccessCompletes : ∀ status ∈ [(2 : BitVec 32), 0x13],
    ∀ a ∈ [Access.read (.res 0), .write .len 7, .write (.op 5) 7, .write .cmd 0x10],
    ∃ s : State, s.status = status ∧ runState s ≠ .busy ∧ s.held = a :: [] := by
  intro status h a _
  exact ⟨{ load [] zeroOps with status := status, held := [a] }, rfl, by
    show statusState status ≠ .busy
    simp only [List.mem_cons, List.not_mem_nil, or_false] at h
    rcases h with rfl | rfl <;> decide, rfl⟩

theorem witness_WritesIgnoredInFault : ∀ a ∈ [Access.write .cmd 0x10, .write (.op 0) 1, .read .finfo],
    runState (faulted [.host (.access a)]) = .fault ∧ (faulted [.host (.access a)]).held = [] ∧
    (faulted [.host (.access a)]).agenda = .host (.access a) :: [] := by
  intro a h
  exact ⟨by decide +revert, rfl, rfl⟩

/-- The invariant holds in a state an illegal word has put in `FAULT`. -/
theorem faulted_inv (turns : List Turn) : RunInv (faulted turns) where
  memory := rfl
  reserved := by show (0x23 : BitVec 32) &&& 0xFFFFFF0C = 0; decide
  noCause h := absurd (show statusState 0x23 = .fault by decide) h
  fault _ := .inr ⟨by show statusCause 0x23 = 2; decide, rfl, no_decode_0x110⟩
  running := by
    show statusState 0x23 = .busy ↔ Phase.pIdle ≠ .pIdle
    decide
  phase := trivial

theorem witness_FaultIsSticky : ∀ m ∈ [HostMove.access (.write .cmd 0x10), .release, .reset],
    RunInv (faulted [.host m]) ∧ runState (faulted [.host m]) = .fault ∧
    ∃ t, step (faulted [.host m]) = .next t := by
  intro m h
  refine ⟨faulted_inv _, by decide +revert, ?_⟩
  simp only [List.mem_cons, List.not_mem_nil, or_false] at h
  rcases h with rfl | rfl | rfl <;> exact ⟨_, rfl⟩

/-- A step in which an operand register changes, and one in which `LEN` changes. -/
theorem witness_OnlyTheHostWritesOperands :
    (∃ t, step { load [] zeroOps with agenda := [.host (.access (.write (.op 5) 7))] } = .next t ∧
      readOp t.ops 5 ≠ readOp zeroOps 5) ∧
    (∃ t, step { load [] zeroOps with held := [.write .len 7] } = .next t ∧ t.len ≠ (load [] zeroOps).len) :=
  ⟨⟨_, rfl, by decide⟩, ⟨_, rfl, by decide⟩⟩

/-- Reset while a command runs, in `FAULT`, and in `IDLE`. -/
theorem witness_ResetFromAnyState :
    (runState (started [] zeroOps 0x10 [.host .reset]) = .busy ∧
      (started [] zeroOps 0x10 [.host .reset]).agenda = .host .reset :: []) ∧
    ((faulted [.host .reset]).held = [] ∧ (faulted [.host .reset]).agenda = .host .reset :: []) ∧
    { load [] zeroOps with agenda := [.host .reset] }.held = [] := by decide

theorem witness_HeldAccessAcrossReset :
    ∀ a ∈ [Access.read .finfo, .write .len 7, .write (.op 0) 7, .write .cmd 0x10], ∃ s : State,
      runState s = .busy ∧ s.held = a :: [] ∧ s.agenda = .host .reset :: [] := fun a _ =>
  ⟨{ started [] zeroOps 0x10 [.host .reset] with held := [a] }, by
    show statusState (startCommand (load [] zeroOps) 0x10).status = .busy; decide, rfl, rfl⟩

/-- An empty buffer, and one of forty bytes, in `IDLE` and in `DONE`. -/
theorem witness_BufLineBindsAndSetsLength : ∀ bytes ∈ [[], b40], ∀ status ∈ [(0 : BitVec 32), 2],
    ∃ s : State, (runState s = .idle ∨ runState s = .done) ∧ s.held = [] ∧ bytes.length < 2 ^ 64 ∧
      s.agenda = lineTurns (.buf bytes) ++ [] := by
  intro bytes hb status hs
  refine ⟨{ load [] zeroOps with status := status, agenda := lineTurns (.buf bytes) ++ [] }, ?_, rfl, ?_, rfl⟩
  · show statusState status = .idle ∨ statusState status = .done
    simp only [List.mem_cons, List.not_mem_nil, or_false] at hs
    rcases hs with rfl | rfl <;> decide
  · revert bytes; decide

theorem witness_InstancesAreIsolated :
    ∃ sys', systemStep 0 [load [] zeroOps, faulted []] = .next sys' ∧ 1 ≠ 0 := ⟨_, rfl, by decide⟩

/-- The invariant holds in a state in which a command has just been started. -/
theorem started_inv (bytes : List Byte) (o : OpFile) (c : CmdWord) (turns : List Turn) :
    RunInv (started bytes o c turns) where
  memory := wf_cellsFrom bytes 0
  reserved := by
    show setStatusCause 0 (setStatusState .busy 0) &&& 0xFFFFFF0C = 0
    decide
  noCause _ := by
    show statusCause (setStatusCause 0 (setStatusState .busy 0)) = 0
    decide
  fault h := absurd (show statusState (setStatusCause 0 (setStatusState .busy 0)) = .busy by decide)
    (by rw [show statusState (setStatusCause 0 (setStatusState .busy 0)) = .fault from h]; decide)
  running := by
    show statusState (setStatusCause 0 (setStatusState .busy 0)) = .busy ↔ Phase.pDecode ≠ .pIdle
    decide
  phase := trivial

/-- `BUSY` to `DONE`, `BUSY` to `FAULT`, `BUSY` to `IDLE`, and (in `FAULT`) to `IDLE`. -/
theorem witness_StateChangesAsListed :
    (∀ c ∈ [(0x10, Turn.command), (0x110, .command), (0x10, .await), (0x10, .host .reset)],
      RunInv (started [] zeroOps c.1 [c.2]) ∧ ∃ t, step (started [] zeroOps c.1 [c.2]) = .next t ∧
        runState t ≠ runState (started [] zeroOps c.1 [c.2])) ∧
    RunInv (faulted [.host .reset]) ∧ ∃ t, step (faulted [.host .reset]) = .next t ∧
      runState t ≠ runState (faulted [.host .reset]) := by
  refine ⟨fun c hc => ⟨started_inv _ _ _ _, ?_⟩, faulted_inv _, _, rfl, by decide⟩
  simp only [List.mem_cons, List.not_mem_nil, or_false] at hc
  rcases hc with rfl | rfl | rfl | rfl <;> exact ⟨_, rfl, by decide⟩

/-- A loaded state satisfies the invariant, whatever accesses are held. -/
theorem load_inv (bytes : List Byte) (o : OpFile) (held : List Access) :
    RunInv { load bytes o with held := held } where
  memory := wf_cellsFrom bytes 0
  reserved := by show (0 : BitVec 32) &&& 0xFFFFFF0C = 0; decide
  noCause _ := by show statusCause 0 = 0; decide
  fault h := absurd h (by decide : ¬ statusState 0 = .fault)
  running := by
    show statusState 0 = .busy ↔ Phase.pIdle ≠ .pIdle
    decide
  phase := trivial

/-- `IDLE` to `BUSY`. -/
theorem witness_StateChangesAsListed_start :
    RunInv { load [] zeroOps with held := [.write .cmd 0x10] } ∧
    ∃ t, step { load [] zeroOps with held := [.write .cmd 0x10] } = .next t ∧
      runState t ≠ runState { load [] zeroOps with held := [.write .cmd 0x10] } :=
  ⟨load_inv _ _ _, _, rfl, by decide⟩

theorem witness_InvariantKeptByEveryStep :
    RunInv (started [] zeroOps 0x10 [.command]) ∧ ∃ t, step (started [] zeroOps 0x10 [.command]) = .next t :=
  ⟨started_inv _ _ _ _, _, rfl⟩

/-- A short digest, a long one, and a primitive command. -/
theorem witness_PhasesAgreeWithWholeCommand :
    ((started [] zeroOps 0x10 []).phase = .pDecode ∧ decode (started [] zeroOps 0x10 []).cmd = .ok .hash) ∧
    ((started (pat 128) zeroOps 0x12 []).phase = .pDecode ∧
      decode (started (pat 128) zeroOps 0x12 []).cmd = .ok .hashss ∧
      64 < (started (pat 128) zeroOps 0x12 []).len.toNat) ∧
    ((started [] zeroOps 4 []).phase = .pDecode ∧ decode (started [] zeroOps 4 []).cmd = .ok .shmix) :=
  ⟨⟨rfl, by decide⟩, ⟨rfl, by decide, by
    show 64 < (load (pat 128) zeroOps).len.toNat
    rw [(witness_HashBuckets 128 (by decide)).1]; decide⟩, ⟨rfl, by decide⟩⟩

theorem witness_RunningCommandEnds :
    RunInv (started (pat 128) zeroOps 0x10 []) ∧ Backed (started (pat 128) zeroOps 0x10 []) ∧
    runState (started (pat 128) zeroOps 0x10 []) = .busy :=
  ⟨started_inv _ _ _ _, backed_load (pat 128) zeroOps (by simp [pat]), by
    show statusState (setStatusCause 0 (setStatusState .busy 0)) = .busy; decide⟩

/-- A script's command line, and one with a raw illegal word, begun while a command runs. -/
theorem witness_RunningCommandEnds_line :
    ∀ line ∈ [(ScriptLine.command .hash, encode .hash), (.rawCmd 0x110, 0x110)],
      ∃ s : State, RunInv s ∧ Backed s ∧ s.held = [] ∧ runState s = .busy ∧
        (line.1 = .rawCmd line.2 ∨ ∃ i, line.1 = .command i ∧ line.2 = encode i) ∧
        s.agenda = lineTurns line.1 ++ [.host .reset] := by
  intro line h
  refine ⟨started [] zeroOps 4 (lineTurns line.1 ++ [.host .reset]), started_inv _ _ _ _,
    backed_load [] zeroOps (by decide), rfl,
    (by decide : statusState (setStatusCause 0 (setStatusState .busy 0)) = .busy), ?_, rfl⟩
  simp only [List.mem_cons, List.not_mem_nil, or_false] at h
  rcases h with rfl | rfl
  · exact .inr ⟨_, rfl, rfl⟩
  · exact .inl rfl

/-! ### R48: a script waits -/

/-- A line that writes `CMD` while `SHMIX` runs: the running command ends, the held word runs, and after the
wait `STATE` is `DONE` with the line's word in `CMD`. -/
theorem test_line_waits_until_not_busy :
    ∃ t, runSteps 5 (started [] zeroOps 0x04 (lineTurns (.rawCmd 0x02) ++ [.phase])) = .next t ∧
      runState t = .done ∧ t.cmd = 0x02 ∧ t.agenda = [.phase] := ⟨_, rfl, by decide⟩

/-- While a command runs the wait stays on the agenda. -/
theorem test_wait_stays_while_busy :
    ∃ t, step (started [] zeroOps 0x04 [.await]) = .next t ∧ t.agenda = [.await] ∧ runState t = .done :=
  ⟨_, rfl, by decide⟩

end Sys2Proof.Tests
end

section
/-! O40: two runs of one command from states that agree on the command's inputs. What the command reads
of the buffer is equal in both (the congruence of every rule that reads, from `memRead_congr`), and equal
readings end alike (`settle_endAlike`). -/

namespace Sys2Proof.Machine

/-! ### What a rule reads depends only on the bytes below `LEN` -/

section Congruence

variable {m m' : Memory} {len : Word} (hb : ∀ a, a < len.toNat → byteAt m a = byteAt m' a)
include hb

theorem fetch8_congr : fetch8 m len = fetch8 m' len := funext fun _ => memRead_congr hb

theorem fetch32_congr : fetch32 m len = fetch32 m' len := funext fun _ => memRead_congr hb

theorem fetch64_congr : fetch64 m len = fetch64 m' len := funext fun _ => memRead_congr hb

theorem weakHashBuf_congr : weakHashBuf m len = weakHashBuf m' len := by
  funext off a b
  simp only [weakHashBuf, fetch64_congr hb]

theorem shortDigest_congr : shortDigest m len = shortDigest m' len := by
  simp only [shortDigest, len1to3, len4to7, len8to16, len17to32, len33to64, fetch8_congr hb,
    fetch32_congr hb, fetch64_congr hb]

theorem primePipeline_congr (rule : TruncRule) :
    primePipeline rule m len = primePipeline rule m' len := by
  simp only [primePipeline, fetch64_congr hb, weakHashBuf_congr hb]

theorem blockStep_congr : blockStep m len = blockStep m' len := by
  funext h
  simp only [blockStep, fetch64_congr hb, weakHashBuf_congr hb]

theorem blockLoop_congr (fuel : Nat) : blockLoop m len fuel = blockLoop m' len fuel := by
  induction fuel with
  | zero => rfl
  | succ fuel ih =>
    funext h
    simp only [blockLoop, blockStep_congr hb, ih]

theorem digestOf_congr (rule : TruncRule) : digestOf rule m len = digestOf rule m' len := by
  simp only [digestOf, lenOver64, primePipeline_congr hb, blockLoop_congr hb, shortDigest_congr hb]

end Congruence

/-! ### Two ends that the host cannot tell apart -/

/-- Both states are `DONE` with the same result; `RES[1]` counts only for a two-result command (R11). -/
def DoneAlike (pair : Bool) (s t : State) : Prop :=
  runState s = .done ∧ runState t = .done ∧ t.res0 = s.res0 ∧ (pair = true → t.res1 = s.res1)

/-- Both states are in `FAULT` with the same fault record (R95). -/
def FaultAlike (s t : State) : Prop :=
  runState s = .fault ∧ runState t = .fault ∧ t.finfo = s.finfo ∧
    statusCause t.status = statusCause s.status

theorem completeOne_doneAlike (s t : State) {v w : Word} (h : v = w) :
    DoneAlike false (completeOne s v) (completeOne t w) := by
  simp [DoneAlike, runState, h]

theorem completePair_doneAlike (s t : State) {p q : Pair} (h : p = q) :
    DoneAlike true (completePair s p) (completePair t q) := by
  simp [DoneAlike, runState, h]

theorem completeDigest_doneAlike (s t : State) {d e : Word} (h : d = e) :
    DoneAlike false (completeDigest s d) (completeDigest t e) := by
  simp [DoneAlike, runState, h]

theorem raiseFault_faultAlike (s t : State) (c : Cause) (info : Word) :
    FaultAlike (raiseFault s c info) (raiseFault t c info) := by
  simp [FaultAlike, runState]

/-- When the run `x` gives a next state, so does the run `y`, and the two end alike. -/
def EndAlike (pair : Bool) (x y : Host.Outcome State Fault Refusal) : Prop :=
  ∀ s', x = .next s' → ∃ t', y = .next t' ∧ (DoneAlike pair s' t' ∨ FaultAlike s' t')

theorem next_endAlike {pair : Bool} {a b : State} (h : DoneAlike pair a b) :
    EndAlike pair (.next a) (.next b) := by
  rintro _ ⟨⟩
  exact ⟨b, rfl, .inl h⟩

/-- Equal readings end alike: `BufRange` at the same offset, or what both make of the same value. -/
theorem settle_endAlike {α : Type} {pair : Bool} {s t : State} {r r' : Reading α} {f g : α → State}
    (hr : r = r') (h : ∀ v, DoneAlike pair (f v) (g v)) :
    EndAlike pair (settle s r f) (settle t r' g) := by
  subst hr
  intro s' hs
  rcases settle_eq_next hs with ⟨v, rfl, rfl⟩ | ⟨off, rfl, rfl⟩
  · exact ⟨g v, rfl, .inl (h v)⟩
  · exact ⟨_, rfl, .inr (raiseFault_faultAlike s t _ _)⟩

/-! ### The commands -/

/-- A command that does not call `MemRead` (R44): the operands it reads decide its result. -/
theorem exec_endAlike_of_registers {i : Instr} {s t : State} (hi : readsBuffer i = false)
    (hops : ∀ k ∈ readsOps i, readOp s.ops k = readOp t.ops k) :
    EndAlike (writesPair i) (exec i s) (exec i t) := by
  cases i with
  | rotr _ | bswapB | bswapH | bswapW | bswapD | shmix =>
    have h0 : s.ops.o0 = t.ops.o0 := hops 0 (by simp [readsOps])
    exact next_endAlike (completeOne_doneAlike s t (by rw [h0]))
  | h128 | hl16 =>
    have h0 : s.ops.o0 = t.ops.o0 := hops 0 (by simp [readsOps])
    have h1 : s.ops.o1 = t.ops.o1 := hops 1 (by simp [readsOps])
    exact next_endAlike (completeOne_doneAlike s t (by rw [h0, h1]))
  | hl16m =>
    have h0 : s.ops.o0 = t.ops.o0 := hops 0 (by simp [readsOps])
    have h1 : s.ops.o1 = t.ops.o1 := hops 1 (by simp [readsOps])
    have h2 : s.ops.o2 = t.ops.o2 := hops 2 (by simp [readsOps])
    exact next_endAlike (completeOne_doneAlike s t (by rw [h0, h1, h2]))
  | weak32 =>
    have h : s.ops = t.ops := opFile_ext fun k => hops k (by fin_cases k <;> simp [readsOps])
    exact next_endAlike (completePair_doneAlike s t (by rw [h]))
  | fetchB | fetchH | fetchW | fetchD | weak32b | hash | hashs | hashss => cases hi

/-- A command that calls `MemRead` (R44): the operands it reads, `LEN` and the bytes below it decide what
it reads, and so its result or its fault. -/
theorem exec_endAlike_of_buffer {i : Instr} {s t : State} (hi : readsBuffer i = true)
    (hops : ∀ k ∈ readsOps i, readOp s.ops k = readOp t.ops k) (hl : s.len = t.len)
    (hb : ∀ off, off < s.len.toNat → byteAt s.buf off = byteAt t.buf off) :
    EndAlike (writesPair i) (exec i s) (exec i t) := by
  have hd : digestOf truncRule s.buf s.len = digestOf truncRule t.buf t.len :=
    hl ▸ digestOf_congr hb truncRule
  cases i with
  | fetchB | fetchH | fetchW | fetchD =>
    have h0 : s.ops.o0 = t.ops.o0 := hops 0 (by simp [readsOps])
    exact settle_endAlike (by rw [h0, ← hl]; exact memRead_congr hb)
      fun _ => completeOne_doneAlike s t rfl
  | weak32b =>
    have h0 : s.ops.o0 = t.ops.o0 := hops 0 (by simp [readsOps])
    have h4 : s.ops.o4 = t.ops.o4 := hops 4 (by simp [readsOps])
    have h5 : s.ops.o5 = t.ops.o5 := hops 5 (by simp [readsOps])
    exact settle_endAlike (by rw [h0, h4, h5, ← hl, weakHashBuf_congr hb])
      fun _ => completePair_doneAlike s t rfl
  | hash => exact settle_endAlike hd fun _ => completeDigest_doneAlike s t rfl
  | hashs =>
    have h1 : s.ops.o1 = t.ops.o1 := hops 1 (by simp [readsOps])
    exact settle_endAlike hd fun _ => completeDigest_doneAlike s t (by rw [h1])
  | hashss =>
    have h0 : s.ops.o0 = t.ops.o0 := hops 0 (by simp [readsOps])
    have h1 : s.ops.o1 = t.ops.o1 := hops 1 (by simp [readsOps])
    exact settle_endAlike hd fun _ => completeDigest_doneAlike s t (by rw [h0, h1])
  | rotr _ | bswapB | bswapH | bswapW | bswapD | shmix | h128 | hl16 | hl16m | weak32 => cases hi

/-- Settles O40, by whether the command calls `MemRead`: the operands its row names, and for a command
that reads the buffer `LEN` and the bytes below it, decide what it reads; equal readings end alike. -/
theorem outcomeDependsOnInputsOnly : Obligations.OutcomeDependsOnInputsOnly := by
  intro i s t s' hops hbuf hs
  cases hi : readsBuffer i with
  | false => exact exec_endAlike_of_registers hi hops s' hs
  | true =>
    obtain ⟨hl, hb⟩ := hbuf hi
    exact exec_endAlike_of_buffer hi hops hl hb s' hs

end Sys2Proof.Machine
end

section
/-! No rule of the digest handlers reads outside `LEN` (R34, R77, R84): a digest command can stop at an
unbacked byte, but never with `BufRange`. -/

namespace Sys2Proof.Machine

/-- The reading does not stop with `BufRange`. -/
def StaysInRange {α : Type} (r : Reading α) : Prop := ∀ off, r ≠ .error (.outOfRange off)

theorem staysInRange_ok {α : Type} (v : α) : StaysInRange (.ok v : Reading α) := fun _ => nofun

theorem staysInRange_bind {α β : Type} {r : Reading α} {f : α → Reading β} (hr : StaysInRange r)
    (hf : ∀ v, r = .ok v → StaysInRange (f v)) : StaysInRange (r >>= f) := by
  intro off e
  rcases reading_bind_eq_error e with e | ⟨v, hv, e⟩
  · exact hr off e
  · exact hf v hv off e

theorem memRead_staysInRange (m : Memory) {len : Word} {off n : Nat} (h : off + n ≤ len.toNat) :
    StaysInRange (memRead m len off n) := by
  intro a
  rcases memRead_cases m len off n with ⟨hlt, -⟩ | ⟨-, -, e⟩ | ⟨-, k, -, -, e⟩
  · omega
  · rw [e]; nofun
  · rw [e]; nofun

section Reads

variable (m : Memory) {len : Word} {α : Type}

/-- A rule that reads a byte in range and goes on in range. -/
theorem staysInRange_fetch8 {off : Nat} {f : Word → Reading α} (h : off + 1 ≤ len.toNat)
    (hf : ∀ v, StaysInRange (f v)) : StaysInRange (fetch8 m len off >>= f) :=
  staysInRange_bind (memRead_staysInRange m h) fun v _ => hf v

/-- A rule that reads 32 bits in range and goes on in range. -/
theorem staysInRange_fetch32 {off : Nat} {f : Word → Reading α} (h : off + 4 ≤ len.toNat)
    (hf : ∀ v, StaysInRange (f v)) : StaysInRange (fetch32 m len off >>= f) :=
  staysInRange_bind (memRead_staysInRange m h) fun v _ => hf v

/-- A rule that reads 64 bits in range and goes on in range. -/
theorem staysInRange_fetch64 {off : Nat} {f : Word → Reading α} (h : off + 8 ≤ len.toNat)
    (hf : ∀ v, StaysInRange (f v)) : StaysInRange (fetch64 m len off >>= f) :=
  staysInRange_bind (memRead_staysInRange m h) fun v _ => hf v

/-- A rule that calls the buffer form of R65 in range and goes on in range. -/
theorem staysInRange_weakHashBuf {off : Nat} {a b : Word} {f : Pair → Reading α}
    (h : off + 32 ≤ len.toNat) (hf : ∀ v, StaysInRange (f v)) :
    StaysInRange (weakHashBuf m len off a b >>= f) := by
  refine staysInRange_bind ?_ fun v _ => hf v
  unfold weakHashBuf
  repeat refine staysInRange_fetch64 m (by omega) fun _ => ?_
  exact staysInRange_ok _

end Reads

/-! ### The handlers up to 64 bytes (R77) -/

theorem len1to3_staysInRange (m : Memory) {len : Word} (h : 1 ≤ len.toNat) :
    StaysInRange (len1to3 m len) := by
  have half : len.toNat >>> 1 = len.toNat / 2 := Nat.shiftRight_eq_div_pow _ 1
  unfold len1to3
  dsimp only
  repeat refine staysInRange_fetch8 m (by omega) fun _ => ?_
  exact staysInRange_ok _

theorem len4to7_staysInRange (m : Memory) {len : Word} (h : 4 ≤ len.toNat) :
    StaysInRange (len4to7 m len) := by
  unfold len4to7
  dsimp only
  repeat refine staysInRange_fetch32 m (by omega) fun _ => ?_
  exact staysInRange_ok _

theorem len8to16_staysInRange (m : Memory) {len : Word} (h : 8 ≤ len.toNat) :
    StaysInRange (len8to16 m len) := by
  unfold len8to16
  dsimp only
  repeat refine staysInRange_fetch64 m (by omega) fun _ => ?_
  exact staysInRange_ok _

theorem len17to32_staysInRange (m : Memory) {len : Word} (h : 17 ≤ len.toNat) :
    StaysInRange (len17to32 m len) := by
  unfold len17to32
  dsimp only
  repeat refine staysInRange_fetch64 m (by omega) fun _ => ?_
  exact staysInRange_ok _

theorem len33to64_staysInRange (m : Memory) {len : Word} (h : 33 ≤ len.toNat) :
    StaysInRange (len33to64 m len) := by
  unfold len33to64
  dsimp only
  repeat refine staysInRange_fetch64 m (by omega) fun _ => ?_
  exact staysInRange_ok _

theorem shortDigest_staysInRange (m : Memory) (len : Word) : StaysInRange (shortDigest m len) := by
  unfold shortDigest
  dsimp only
  repeat' split
  · exact staysInRange_ok _
  · exact len1to3_staysInRange m (by omega)
  · exact len4to7_staysInRange m (by omega)
  · exact len8to16_staysInRange m (by omega)
  · exact len17to32_staysInRange m (by omega)
  · exact len33to64_staysInRange m (by omega)

/-! ### The pipeline (R84) -/

/-- R81 with `TRUNC_RULE = REF`: the working length, as a number. -/
theorem truncateLen_toNat {len : Word} (h : 0 < len.toNat) :
    (truncateLen truncRule len).toNat = 64 * ((len.toNat - 1) / 64) := by
  have pred : (len - 1).toNat = len.toNat - 1 := by bv_omega
  rw [← pred]
  exact toNat_and_not63 _

theorem primePipeline_staysInRange (rule : TruncRule) (m : Memory) {len : Word}
    (h : 64 < len.toNat) : StaysInRange (primePipeline rule m len) := by
  unfold primePipeline
  dsimp only
  iterate 5 refine staysInRange_fetch64 m (by omega) fun _ => ?_
  iterate 2 refine staysInRange_weakHashBuf m (by omega) fun _ => ?_
  exact staysInRange_fetch64 m (by omega) fun _ => staysInRange_ok _

/-- R81: priming leaves `POS = 0` and the working length in `REM`. -/
theorem primePipeline_pos_rem {rule : TruncRule} {m : Memory} {len : Word} {h : Hidden}
    (e : primePipeline rule m len = .ok h) : h.pos = 0 ∧ h.rem = truncateLen rule len := by
  unfold primePipeline at e
  dsimp only at e
  repeat obtain ⟨_, _, e⟩ := reading_bind_eq_ok e
  cases e
  exact ⟨rfl, rfl⟩

theorem blockStep_staysInRange (m : Memory) {len : Word} {h : Hidden}
    (hr : h.pos.toNat + 64 ≤ len.toNat) : StaysInRange (blockStep m len h) := by
  unfold blockStep
  dsimp only
  iterate 3 refine staysInRange_fetch64 m (by omega) fun _ => ?_
  refine staysInRange_weakHashBuf m (by omega) fun _ => ?_
  refine staysInRange_fetch64 m (by omega) fun _ => ?_
  exact staysInRange_weakHashBuf m (by omega) fun _ => staysInRange_ok _

/-- The loop stays in range while the blocks it may still take end at or before `LEN`. -/
theorem blockLoop_staysInRange (m : Memory) {len : Word} (fuel : Nat) {h : Hidden}
    (hr : h.pos.toNat + 64 * fuel ≤ len.toNat) : StaysInRange (blockLoop m len fuel h) := by
  induction fuel generalizing h with
  | zero => exact staysInRange_ok _
  | succ fuel ih =>
    refine staysInRange_bind (blockStep_staysInRange m (by omega)) fun h' e => ?_
    obtain ⟨hpos, -⟩ := blockStep_pos_rem e
    split
    · exact staysInRange_ok _
    · exact ih (by rw [hpos]; bv_omega)

theorem digestOf_staysInRange (m : Memory) (len : Word) :
    StaysInRange (digestOf truncRule m len) := by
  unfold digestOf
  split
  · next long =>
    refine staysInRange_bind (primePipeline_staysInRange _ m long) fun h e => ?_
    obtain ⟨hpos, hrem⟩ := primePipeline_pos_rem e
    have trunc := truncateLen_toNat (len := len) (by omega)
    have loop : h.pos.toNat + 64 * (h.rem.toNat / 64) ≤ len.toNat := by
      rw [hpos, hrem, trunc, show (0 : Word).toNat = 0 from rfl]
      omega
    exact staysInRange_bind (blockLoop_staysInRange m _ loop) fun _ _ => staysInRange_ok _
  · exact shortDigest_staysInRange m len

end Sys2Proof.Machine
end

section
/-! What a command can end in, said once for all of them, and from it the frame of every command. -/

namespace Sys2Proof.Machine

/-- The ends of the command `i` from `s`: one result, two results, a digest, or `BufRange`. -/
inductive CommandEnd (i : Instr) (s : State) : State → Prop where
  | one (v : Word) : isDigest i = false → writesPair i = false → CommandEnd i s (completeOne s v)
  | pair (p : Pair) : isDigest i = false → writesPair i = true → CommandEnd i s (completePair s p)
  | digest (d : Word) : isDigest i = true → writesPair i = false →
      CommandEnd i s (completeDigest s d)
  | bufRange (info : Word) : canLeaveRange i = true → CommandEnd i s (raiseFault s .bufRange info)

/-- Every command that goes on is at one of its ends; a digest command is never at `BufRange`. -/
theorem exec_commandEnd {i : Instr} {s t : State} (h : exec i s = .next t) : CommandEnd i s t := by
  cases i with
  | rotr _ | bswapB | bswapH | bswapW | bswapD | shmix | h128 | hl16 | hl16m =>
    cases h
    exact .one _ rfl rfl
  | weak32 =>
    cases h
    exact .pair _ rfl rfl
  | fetchB | fetchH | fetchW | fetchD =>
    obtain ⟨v, -, rfl⟩ | ⟨off, -, rfl⟩ := settle_eq_next h
    · exact .one v rfl rfl
    · exact .bufRange _ rfl
  | weak32b =>
    obtain ⟨p, -, rfl⟩ | ⟨off, -, rfl⟩ := settle_eq_next h
    · exact .pair p rfl rfl
    · exact .bufRange _ rfl
  | hash | hashs | hashss =>
    obtain ⟨d, -, rfl⟩ | ⟨off, e, -⟩ := settle_eq_next h
    · exact .digest _ rfl rfl
    · exact absurd e (digestOf_staysInRange _ _ off)

/-- The bits of `STATE` after a fault is entered (R95). -/
theorem raiseFault_stateBits (s : State) (c : Cause) (info : Word) :
    (raiseFault s c info).status.extractLsb' 0 2 = 3 := by
  rw [raiseFault_status, setStatusState_bits]
  rfl

/-! ### The frame of the sequencer -/

/-- What every move of the sequencer from `s` to `t` keeps: the inputs of a command, and `STATUS` until
the command ends. -/
structure SequencerFrame (s t : State) : Prop where
  inputs : KeepsInputs s t
  buf : t.buf = s.buf
  status : t.status = s.status ∨ ((runState t = .done ∨ runState t = .fault) ∧ t.phase = .pIdle)

/-- The inputs of a command are kept when every register that is one is. -/
theorem keepsInputs_of_eq {s t : State} (ops : t.ops = s.ops) (len : t.len = s.len)
    (cmd : t.cmd = s.cmd) (buf : t.buf = s.buf) (held : t.held = s.held)
    (agenda : t.agenda = s.agenda) (replies : t.replies = s.replies) : KeepsInputs s t :=
  ⟨ops, len, cmd, fun _ => by rw [buf], held, agenda, replies⟩

theorem sequencerFrame_refl (s : State) : SequencerFrame s s :=
  ⟨keepsInputs_of_eq rfl rfl rfl rfl rfl rfl rfl, rfl, .inl rfl⟩

theorem raiseFault_frame (s : State) (c : Cause) (info : Word) :
    SequencerFrame s (raiseFault s c info) :=
  ⟨keepsInputs_of_eq rfl rfl rfl rfl rfl rfl rfl, rfl, .inr ⟨.inr (by simp [runState]), rfl⟩⟩

/-- R40: the last line of a command sets `STATE` to `DONE`. -/
theorem runState_of_done {s t : State} (h : t.status = setStatusState .done s.status) :
    runState t = .done := by
  simp [runState, h]

theorem completeDigest_frame (s : State) (d : Word) : SequencerFrame s (completeDigest s d) :=
  ⟨(completeDigest_digestResult s d).keeps, completeDigest_buf s d,
    .inr ⟨.inl (runState_of_done (completeDigest_status s d)), completeDigest_phase s d⟩⟩

theorem CommandEnd.frame {i : Instr} {s t : State} (h : CommandEnd i s t) : SequencerFrame s t := by
  cases h with
  | one v => exact ⟨(completeOne_oneResult s v).rest.keeps, rfl, .inr ⟨.inl (runState_of_done rfl), rfl⟩⟩
  | pair p => exact ⟨(completePair_twoResults s p).rest.keeps, rfl, .inr ⟨.inl (runState_of_done rfl), rfl⟩⟩
  | digest d => exact completeDigest_frame s d
  | bufRange info => exact raiseFault_frame s _ info

/-- R86: when the digest is found the seed mix comes next, for a seeded command, or the command ends. -/
theorem withDigest_cases (i : Instr) (s : State) (d : Word) :
    ((i = .hashs ∨ i = .hashss) ∧ withDigest i s d = { s with phase := .pSeed d }) ∨
    withDigest i s d = completeDigest s d := by
  cases i with
  | hashs => exact .inl ⟨.inl rfl, rfl⟩
  | hashss => exact .inl ⟨.inr rfl, rfl⟩
  | _ => exact .inr rfl

/-- R89: the phase `P_SEED` ends the command with some digest. -/
theorem seedPhase_eq (i : Instr) (s : State) (d : Word) :
    ∃ d', seedPhase i s d = completeDigest s d' := by
  unfold seedPhase
  split
  · exact ⟨_, rfl⟩
  · exact ⟨_, rfl⟩

/-- A phase that writes at most the hidden registers and `PHASE` is in the frame. -/
theorem phase_hidden_frame (s : State) (p : Phase) (h : Hidden) :
    SequencerFrame s { s with phase := p, hidden := h } :=
  ⟨keepsInputs_of_eq rfl rfl rfl rfl rfl rfl rfl, rfl, .inl rfl⟩

theorem withDigest_frame (i : Instr) (s : State) (d : Word) : SequencerFrame s (withDigest i s d) := by
  rcases withDigest_cases i s d with ⟨-, e⟩ | e
  · rw [e]; exact phase_hidden_frame s _ _
  · rw [e]; exact completeDigest_frame s d

/-- A phase that reads the buffer is in the frame when what it makes of the value is. -/
theorem settle_frame {α : Type} {s t : State} {r : Reading α} {done : α → State}
    (hd : ∀ v, SequencerFrame s (done v)) (h : settle s r done = .next t) : SequencerFrame s t := by
  obtain ⟨v, -, rfl⟩ | ⟨off, -, rfl⟩ := settle_eq_next h
  · exact hd v
  · exact raiseFault_frame s _ _

theorem phaseOf_frame {i : Instr} {s t : State} (h : phaseOf i s = .next t) : SequencerFrame s t := by
  unfold phaseOf at h
  cases phase : s.phase <;> simp only [phase] at h
  case pIdle => cases h; exact sequencerFrame_refl s
  case pDecode => cases h; exact phase_hidden_frame s _ _
  case pShort =>
    split at h
    · exact settle_frame (withDigest_frame i s) h
    · exact (exec_commandEnd h).frame
  case pPrime => exact settle_frame (fun g => phase_hidden_frame s _ g) h
  case pBlock => exact settle_frame (fun g => phase_hidden_frame s _ g) h
  case pFinal => cases h; exact withDigest_frame i s _
  case pSeed d =>
    cases h
    obtain ⟨d', e⟩ := seedPhase_eq i s d
    rw [e]
    exact completeDigest_frame s d'

/-- Everything a turn of the sequencer can be: nothing while idle, `IllegalCmd`, the whole command, or one
phase of it. -/
theorem sequencer_cases {s t : State} (h : sequenceCommand s = .next t ∨ sequencePhase s = .next t) :
    (s.phase = .pIdle ∧ t = s) ∨
    (s.phase ≠ .pIdle ∧
      (((∀ i, decode s.cmd ≠ .ok i) ∧ t = raiseIllegal s) ∨
       ∃ i, decode s.cmd = .ok i ∧ (exec i s = .next t ∨ phaseOf i s = .next t))) := by
  by_cases idle : s.phase = .pIdle
  · obtain ⟨ep, ec⟩ := sequence_of_idle idle
    rw [ep, ec, or_self] at h
    cases h
    exact .inl ⟨idle, rfl⟩
  refine .inr ⟨idle, ?_⟩
  unfold sequenceCommand sequencePhase at h
  rw [if_neg idle] at h
  cases hd : decode s.cmd with
  | error e =>
    simp only [hd, ite_self, or_self, Host.Outcome.next.injEq] at h
    exact .inl ⟨nofun, h.symm⟩
  | ok i =>
    simp only [hd] at h
    refine .inr ⟨i, rfl, ?_⟩
    split at h
    · exact h
    · exact .inr (or_self_iff.mp h)

theorem sequencer_frame {s t : State}
    (h : sequenceCommand s = .next t ∨ sequencePhase s = .next t) : SequencerFrame s t := by
  rcases sequencer_cases h with ⟨-, rfl⟩ | ⟨-, ⟨-, rfl⟩ | ⟨i, -, e | e⟩⟩
  · exact sequencerFrame_refl t
  · exact raiseFault_frame s _ _
  · exact (exec_commandEnd e).frame
  · exact phaseOf_frame e

/-- R109: the two-result commands are `WEAK32` and `WEAK32B`. -/
theorem writesPair_iff {i : Instr} : writesPair i = true ↔ i = .weak32 ∨ i = .weak32b := by
  cases i <;> simp [writesPair]

/-- Settles O41: every end of a command keeps its inputs. -/
theorem commandsKeepTheirInputs : Obligations.CommandsKeepTheirInputs :=
  fun _ _ _ h => (exec_commandEnd h).frame.inputs

/-- Settles O43: of the ends in `DONE` only the two-result end writes `RES[1]`, and `BufRange` is not
`DONE`. -/
theorem onlyPairCommandsWriteSecondResult : Obligations.OnlyPairCommandsWriteSecondResult := by
  intro i s t h done ne neB
  cases exec_commandEnd h with
  | one v => rfl
  | pair p _ pair =>
    rcases writesPair_iff.mp pair with e | e
    · exact absurd e ne
    · exact absurd e neB
  | digest d => exact completeDigest_res1 s d
  | bufRange info => rw [raiseFault_stateBits] at done; cases done

/-- Settles O44: of the ends in `DONE` only the digest with `LEN > 64` writes the hidden registers. -/
theorem hiddenRegistersOnlyInPipeline : Obligations.HiddenRegistersOnlyInPipeline := by
  intro i s t h done short
  cases exec_commandEnd h with
  | one v => rfl
  | pair p => rfl
  | digest d isDig =>
    have short : s.len.toNat ≤ 64 := short.resolve_left (by simp [isDig])
    exact ((completeDigest_digestResult s d).hidden short).1
  | bufRange info => rw [raiseFault_stateBits] at done; cases done

end Sys2Proof.Machine
end

section
/-! The host's accesses and the turns of a step, said once: what a write, a completed access and a host's
access change (R18, R19, R96), and who moves in a step. -/

namespace Sys2Proof.Machine

/-- A write stores in `IDLE` and `DONE`, and does nothing otherwise (R13, R96). -/
theorem writeReg_cases (s : State) (r : HostReg) (v : Word) :
    ((runState s = .idle ∨ runState s = .done) ∧ writeReg s r v = storeReg s r v) ∨
    writeReg s r v = s := by
  unfold writeReg
  split
  · next h => exact .inl ⟨.inl h, rfl⟩
  · next h => exact .inl ⟨.inr h, rfl⟩
  · exact .inr rfl
  · exact .inr rfl

/-- An access of the host joins the held ones, while `BUSY`, or completes (R19). -/
theorem accessTurn_cases (s : State) (a : Access) :
    (runState s = .busy ∧ accessTurn s a = { s with held := s.held ++ [a] }) ∨
    accessTurn s a = completeAccess s a := by
  unfold accessTurn
  split
  · next h => exact .inl ⟨h.1, rfl⟩
  · exact .inr rfl

/-- A host move of the buffer goes on only while no command runs, and then changes the buffer alone. -/
theorem bufferTurn_eq_next {s t : State} {m : Memory} (h : bufferTurn s m = .next t) :
    runState s ≠ .busy ∧ t = { s with buf := m } := by
  unfold bufferTurn at h
  split at h
  · cases h
  · next hn => cases h; exact ⟨hn, rfl⟩

/-! ### What a completed access changes -/

/-- An operand register that a completed access changes is the one written, and holds the value. -/
theorem completeAccess_op_changed {s : State} {a : Access} {i : Fin 6}
    (h : readOp (completeAccess s a).ops i ≠ readOp s.ops i) :
    a = .write (.op i) (readOp (completeAccess s a).ops i) := by
  cases a with
  | read r => exact absurd rfl h
  | write r v =>
    show Access.write r v = .write (.op i) (readOp (writeReg s r v).ops i)
    replace h : readOp (writeReg s r v).ops i ≠ readOp s.ops i := h
    rcases writeReg_cases s r v with ⟨-, e⟩ | e
    · rw [e] at h ⊢
      cases r with
      | op j =>
        simp only [storeReg, readOp_writeOp] at h ⊢
        split at h
        · next hij => rw [if_pos hij, hij]
        · exact absurd rfl h
      | _ => exact absurd rfl h
    · rw [e] at h; exact absurd rfl h

/-- A completed access that changes `LEN` writes it. -/
theorem completeAccess_len_changed {s : State} {a : Access}
    (h : (completeAccess s a).len ≠ s.len) : a = .write .len (completeAccess s a).len := by
  cases a with
  | read r => exact absurd rfl h
  | write r v =>
    show Access.write r v = .write .len (writeReg s r v).len
    replace h : (writeReg s r v).len ≠ s.len := h
    rcases writeReg_cases s r v with ⟨-, e⟩ | e
    · rw [e] at h ⊢
      cases r with
      | len => rfl
      | _ => exact absurd rfl h
    · rw [e] at h; exact absurd rfl h

/-- A completed access that changes `STATE` starts a command (R13). -/
theorem completeAccess_state_changed {s : State} {a : Access}
    (h : runState (completeAccess s a) ≠ runState s) :
    (runState s = .idle ∨ runState s = .done) ∧
      ∃ v, a = .write .cmd v ∧ completeAccess s a = startCommand s (v.setWidth 32) := by
  cases a with
  | read r => exact absurd rfl h
  | write r v =>
    replace h : runState (writeReg s r v) ≠ runState s := h
    rcases writeReg_cases s r v with ⟨ready, e⟩ | e
    · rw [e] at h
      cases r with
      | cmd => exact ⟨ready, v, rfl, e⟩
      | _ => exact absurd rfl h
    · rw [e] at h; exact absurd rfl h

/-- A started command is `BUSY` (R40). -/
theorem runState_startCommand (s : State) (c : CmdWord) : runState (startCommand s c) = .busy := by
  simp [runState]

/-! ### Who moves in a step -/

/-- The agenda leaves the move to the sequencer. -/
def SequencerNext (s : State) : Prop :=
  s.agenda = [] ∨
    ∃ rest, s.agenda = .command :: rest ∨ s.agenda = .phase :: rest ∨ s.agenda = .await :: rest

/-- Everything a step that goes on can be: a held access completes, the host moves, a wait is over, or the
sequencer moves. -/
theorem step_movers {s t : State} (h : step s = .next t) :
    (∃ a rest, s.held = a :: rest ∧ runState s ≠ .busy ∧
      t = completeAccess { s with held := rest } a) ∨
    (∃ m rest, s.agenda = .host m :: rest ∧ hostTurn { s with agenda := rest } m = .next t) ∨
    (∃ rest, s.agenda = .await :: rest ∧ t = { s with agenda := rest }) ∨
    (SequencerNext s ∧ ∃ turns, sequenceCommand { s with agenda := turns } = .next t ∨
      sequencePhase { s with agenda := turns } = .next t) := by
  rcases step_cases s with ⟨hn, a, rest, hheld, e⟩ |
    ⟨-, ⟨ha, e⟩ | ⟨rest, ha, e⟩ | ⟨rest, ha, e⟩ | ⟨m, rest, ha, e⟩ | ⟨rest, ha, e⟩⟩
  · rw [e] at h; cases h; exact .inl ⟨a, rest, hheld, hn, rfl⟩
  · rw [e] at h; exact .inr (.inr (.inr ⟨.inl ha, s.agenda, .inl h⟩))
  · rw [e] at h; exact .inr (.inr (.inr ⟨.inr ⟨rest, .inl ha⟩, rest, .inl h⟩))
  · rw [e] at h; exact .inr (.inr (.inr ⟨.inr ⟨rest, .inr (.inl ha)⟩, rest, .inr h⟩))
  · rw [e] at h; exact .inr (.inl ⟨m, rest, ha, h⟩)
  · rw [e] at h
    rcases awaitTurn_cases s rest with ⟨-, e'⟩ | ⟨-, e'⟩
    · rw [e'] at h
      exact .inr (.inr (.inr ⟨.inr ⟨rest, .inr (.inr ha)⟩, s.agenda, .inl h⟩))
    · rw [e'] at h; cases h; exact .inr (.inr (.inl ⟨rest, ha, rfl⟩))

/-- Everything a host's turn that goes on can be: an access completes, an access is held, the buffer alone
changes and keeps its canonical form, or reset. -/
theorem hostTurn_movers {s t : State} {m : HostMove} (h : hostTurn s m = .next t) :
    (∃ a, m = .access a ∧ t = completeAccess s a) ∨
    (∃ held, t = { s with held := held }) ∨
    (runState s ≠ .busy ∧ ∃ buf, (s.buf.wf = true → buf.wf = true) ∧ t = { s with buf := buf }) ∨
    (m = .reset ∧ t = resetEvent s) := by
  have buffer {buf : Memory} (hwf : s.buf.wf = true → buf.wf = true) (h : bufferTurn s buf = .next t) :
      runState s ≠ .busy ∧ ∃ buf, (s.buf.wf = true → buf.wf = true) ∧ t = { s with buf := buf } :=
    let ⟨hn, e⟩ := bufferTurn_eq_next h
    ⟨hn, buf, hwf, e⟩
  cases m with
  | access a =>
    cases h
    rcases accessTurn_cases s a with ⟨-, e⟩ | e
    · exact .inr (.inl ⟨_, e⟩)
    · exact .inl ⟨a, rfl, e⟩
  | bind bytes => exact .inr (.inr (.inl (buffer (fun _ => wf_cellsFrom bytes 0) h)))
  | poke off b => exact .inr (.inr (.inl (buffer (fun wf => wf_putByte wf off.isLt b) h)))
  | release => exact .inr (.inr (.inl (buffer (fun _ => wf_nil) h)))
  | reset => cases h; exact .inr (.inr (.inr ⟨rfl, rfl⟩))

/-- Settles O50, by who moves: the sequencer keeps the inputs of a command, and of the host's moves only
reset and a write to the register change it. -/
theorem onlyTheHostWritesOperands : Obligations.OnlyTheHostWritesOperands := by
  intro s t h
  rcases step_movers h with ⟨a, rest, hheld, -, rfl⟩ | ⟨m, rest, ha, hm⟩ | ⟨rest, -, rfl⟩ |
    ⟨-, turns, hs⟩
  · exact .inr ⟨
      fun i hi => .inr ⟨rest, hheld.trans (congrArg (· :: rest) (completeAccess_op_changed hi))⟩,
      fun hl => .inr ⟨rest, hheld.trans (congrArg (· :: rest) (completeAccess_len_changed hl))⟩⟩
  · rcases hostTurn_movers hm with ⟨a, rfl, rfl⟩ | ⟨held, rfl⟩ | ⟨-, buf, -, rfl⟩ | ⟨rfl, -⟩
    · have turn {a' : Access} (e : a = a') : s.agenda = .host (.access a') :: rest := e ▸ ha
      exact .inr ⟨fun i hi => .inl ⟨rest, turn (completeAccess_op_changed hi)⟩,
        fun hl => .inl ⟨rest, turn (completeAccess_len_changed hl)⟩⟩
    · exact .inr ⟨fun _ hi => absurd rfl hi, fun hl => absurd rfl hl⟩
    · exact .inr ⟨fun _ hi => absurd rfl hi, fun hl => absurd rfl hl⟩
    · exact .inl ⟨rest, ha⟩
  · exact .inr ⟨fun _ hi => absurd rfl hi, fun hl => absurd rfl hl⟩
  · have keeps := (sequencer_frame hs).inputs
    exact .inr ⟨fun i hi => absurd (by rw [keeps.ops]) hi, fun hl => absurd keeps.len hl⟩

/-- Settles O51, by who moves: a completed access changes `STATE` only by starting a command, the
sequencer only by ending one, and reset makes it `IDLE`. -/
theorem stateChangesAsListed : Obligations.StateChangesAsListed := by
  intro s t inv h changed
  rcases step_movers h with ⟨a, rest, hheld, -, rfl⟩ | ⟨m, rest, ha, hm⟩ | ⟨rest, -, rfl⟩ |
    ⟨who, turns, hs⟩
  · obtain ⟨ready, v, rfl, e⟩ := completeAccess_state_changed changed
    rw [e]
    exact .inl ⟨ready, runState_startCommand _ _, rfl, .inr ⟨v, rest, hheld, rfl⟩⟩
  · rcases hostTurn_movers hm with ⟨a, rfl, rfl⟩ | ⟨held, rfl⟩ | ⟨-, buf, -, rfl⟩ | ⟨rfl, rfl⟩
    · obtain ⟨ready, v, rfl, e⟩ := completeAccess_state_changed changed
      rw [e]
      exact .inl ⟨ready, runState_startCommand _ _, rfl, .inl ⟨v, rest, ha, rfl⟩⟩
    · exact absurd rfl changed
    · exact absurd rfl changed
    · exact .inr (.inr ⟨rfl, rest, ha⟩)
  · exact absurd rfl changed
  · have running : runState s = .busy := by
      rcases sequencer_cases hs with ⟨-, rfl⟩ | ⟨hp, -⟩
      · exact absurd rfl changed
      · exact inv.running.mpr hp
    rcases (sequencer_frame hs).status with e | ⟨ended, idle⟩
    · exact absurd (congrArg statusState e) changed
    · exact .inr (.inl ⟨running, ended, idle, who⟩)

end Sys2Proof.Machine
end

section
/-! O57 and O58: the invariant of a run, kept by every move of the sequencer and of the host. -/

namespace Sys2Proof.Machine

/-! ### The reserved bits of `STATUS` -/

theorem setStatusState_reserved (r : RunState) (w : BitVec 32) :
    setStatusState r w &&& 0xFFFFFF0C = w &&& 0xFFFFFF0C := by
  have code : stateCode r &&& 0xFFFFFF0C = 0 := by cases r <;> decide
  have mask : (0xFFFFFFFC#32) &&& 0xFFFFFF0C = 0xFFFFFF0C := by decide
  rw [setStatusState, BitVec.and_or_distrib_right, BitVec.and_assoc, mask, code]
  exact BitVec.or_zero

theorem setStatusCause_reserved (c : BitVec 4) (w : BitVec 32) :
    setStatusCause c w &&& 0xFFFFFF0C = w &&& 0xFFFFFF0C := by
  have code : (c.setWidth 32 <<< 4) &&& 0xFFFFFF0C = 0 := by revert c; decide
  have mask : (0xFFFFFF0F#32) &&& 0xFFFFFF0C = 0xFFFFFF0C := by decide
  rw [setStatusCause, BitVec.and_or_distrib_right, BitVec.and_assoc, mask, code]
  exact BitVec.or_zero

/-! ### What the invariant asks at each phase -/

theorem phaseInv_of_idle {s : State} (h : s.phase = .pIdle) : PhaseInv s := by
  unfold PhaseInv; rw [h]; trivial

theorem phaseInv_of_short {s : State} {i : Instr} (h : s.phase = .pShort) (hd : decode s.cmd = .ok i)
    (short : isDigest i → s.len.toNat ≤ 64) : PhaseInv s := by
  unfold PhaseInv; rw [h]; exact ⟨i, hd, short⟩

theorem phaseInv_of_prime {s : State} {i : Instr} (h : s.phase = .pPrime) (hd : decode s.cmd = .ok i)
    (digest : isDigest i) (long : 64 < s.len.toNat) : PhaseInv s := by
  unfold PhaseInv; rw [h]; exact ⟨i, hd, digest, long⟩

theorem phaseInv_of_block {s : State} {i : Instr} (h : s.phase = .pBlock) (hd : decode s.cmd = .ok i)
    (digest : isDigest i) (loop : LoopInv s) : PhaseInv s := by
  unfold PhaseInv; rw [h]; exact ⟨i, hd, digest, loop⟩

theorem phaseInv_of_final {s : State} {i : Instr} (h : s.phase = .pFinal) (hd : decode s.cmd = .ok i)
    (digest : isDigest i) (long : 64 < s.len.toNat) (rem : s.hidden.rem = 0) : PhaseInv s := by
  unfold PhaseInv; rw [h]; exact ⟨i, hd, digest, long, rem⟩

theorem phaseInv_of_seed {s : State} {i : Instr} {d : Word} (h : s.phase = .pSeed d)
    (hd : decode s.cmd = .ok i) (seeded : i = .hashs ∨ i = .hashss) : PhaseInv s := by
  unfold PhaseInv; rw [h]; exact ⟨i, hd, seeded⟩

/-- The registers the loop invariant speaks of decide it. -/
theorem loopInv_congr {s t : State} (h : LoopInv s) (len : t.len = s.len)
    (hidden : t.hidden = s.hidden) : LoopInv t := by
  obtain ⟨long, pos, rem, remains, total⟩ := h
  rw [← len] at long total
  rw [← hidden] at pos rem remains total
  exact ⟨long, pos, rem, remains, total⟩

/-- The registers the phase's invariant speaks of decide it. -/
theorem phaseInv_congr {s t : State} (h : PhaseInv s) (phase : t.phase = s.phase) (cmd : t.cmd = s.cmd)
    (len : t.len = s.len) (hidden : t.hidden = s.hidden) : PhaseInv t := by
  unfold PhaseInv at h ⊢
  rw [phase, cmd, len, hidden]
  cases hp : s.phase with
  | pBlock =>
    rw [hp] at h
    obtain ⟨i, hd, digest, loop⟩ := h
    exact ⟨i, hd, digest, loopInv_congr loop len hidden⟩
  | _ => rw [hp] at h; exact h

/-! ### The invariant after an update of the state -/

/-- `STATUS`, `CMD`, `FINFO` and `PHASE` are kept: the buffer's form and the phase's invariant remain. -/
theorem RunInv.of_control {s t : State} (inv : RunInv s) (status : t.status = s.status)
    (cmd : t.cmd = s.cmd) (finfo : t.finfo = s.finfo) (phase : t.phase = s.phase)
    (memory : t.buf.wf = true) (hp : PhaseInv t) : RunInv t where
  memory := memory
  reserved := by rw [status]; exact inv.reserved
  noCause h := by
    rw [status]
    exact inv.noCause (by rwa [runState, status] at h)
  fault h := by
    rw [runState, status] at h
    have := inv.fault h
    rwa [FaultInv, ← status, ← cmd, ← finfo] at this
  running := by rw [runState, status, phase]; exact inv.running
  phase := hp

/-- `STATUS` is kept while a command runs: the phase's invariant remains. -/
theorem RunInv.of_running {s t : State} (inv : RunInv s) (busy : s.phase ≠ .pIdle)
    (frame : SequencerFrame s t) (status : t.status = s.status) (phase : t.phase ≠ .pIdle)
    (hp : PhaseInv t) : RunInv t where
  memory := by rw [frame.buf]; exact inv.memory
  reserved := by rw [status]; exact inv.reserved
  noCause h := by
    rw [status]
    exact inv.noCause (by rwa [runState, status] at h)
  fault h := by
    rw [runState, status] at h
    rw [← runState, inv.running.mpr busy] at h
    cases h
  running := by
    have := inv.running.mpr busy
    rw [runState, status]
    exact ⟨fun _ => phase, fun _ => this⟩
  phase := hp

/-- A running command ends `DONE`. -/
theorem RunInv.of_done {s t : State} (inv : RunInv s) (busy : s.phase ≠ .pIdle) (buf : t.buf = s.buf)
    (status : t.status = setStatusState .done s.status) (phase : t.phase = .pIdle) : RunInv t where
  memory := by rw [buf]; exact inv.memory
  reserved := by rw [status, setStatusState_reserved]; exact inv.reserved
  noCause _ := by
    rw [status, statusCause_setStatusState]
    exact inv.noCause (by rw [inv.running.mpr busy]; decide)
  fault h := by rw [runState_of_done status] at h; cases h
  running := by rw [runState_of_done status, phase]; decide
  phase := phaseInv_of_idle phase

/-- R95: a fault whose record identifies what faulted. -/
theorem raiseFault_runInv {s : State} {c : Cause} {info : Word} (inv : RunInv s)
    (record : FaultInv (raiseFault s c info)) : RunInv (raiseFault s c info) where
  memory := inv.memory
  reserved := by
    rw [raiseFault_status, setStatusState_reserved, setStatusCause_reserved]
    exact inv.reserved
  noCause h := absurd (by simp [runState]) h
  fault _ := record
  running := by simp [runState]
  phase := phaseInv_of_idle rfl

/-- R40: a started command. -/
theorem startCommand_runInv {s : State} (inv : RunInv s) (c : CmdWord) : RunInv (startCommand s c) where
  memory := inv.memory
  reserved := by
    rw [startCommand_status, setStatusCause_reserved, setStatusState_reserved]
    exact inv.reserved
  noCause _ := by simp
  fault h := by rw [runState_startCommand] at h; cases h
  running := by simp [runState]
  phase := trivial

/-- R105: the reset event leaves `IDLE`. -/
theorem runState_resetEvent (s : State) : runState (resetEvent s) = .idle := rfl

/-- The reset event (R105) needs of the old state only the buffer's form. -/
theorem resetEvent_runInv {s : State} (memory : s.buf.wf = true) : RunInv (resetEvent s) where
  memory := memory
  reserved := BitVec.zero_and
  noCause _ := by rw [resetEvent_status]; decide
  fault h := by rw [runState_resetEvent] at h; cases h
  running := by rw [runState_resetEvent, resetEvent_phase]; decide
  phase := trivial

/-! ### The sequencer -/

theorem completeDigest_runInv {s : State} (inv : RunInv s) (busy : s.phase ≠ .pIdle) (d : Word) :
    RunInv (completeDigest s d) :=
  inv.of_done busy (completeDigest_buf s d) (completeDigest_status s d) (completeDigest_phase s d)

/-- Every end of a running command keeps the invariant. -/
theorem CommandEnd.runInv {i : Instr} {s t : State} (h : CommandEnd i s t) (inv : RunInv s)
    (busy : s.phase ≠ .pIdle) (hd : decode s.cmd = .ok i) : RunInv t := by
  cases h with
  | one v => exact inv.of_done busy rfl rfl rfl
  | pair p => exact inv.of_done busy rfl rfl rfl
  | digest d => exact completeDigest_runInv inv busy d
  | bufRange info leaves => exact raiseFault_runInv inv (.inl ⟨by simp [causeCode], i, hd, leaves⟩)

theorem raiseIllegal_runInv {s : State} (inv : RunInv s) (hd : ∀ i, decode s.cmd ≠ .ok i) :
    RunInv (raiseIllegal s) :=
  raiseFault_runInv inv (.inr ⟨by simp [causeCode], rfl, hd⟩)

theorem withDigest_runInv {i : Instr} {s : State} (inv : RunInv s) (busy : s.phase ≠ .pIdle)
    (hd : decode s.cmd = .ok i) (d : Word) : RunInv (withDigest i s d) := by
  have frame := withDigest_frame i s d
  rcases withDigest_cases i s d with ⟨seeded, e⟩ | e
  · rw [e] at frame ⊢
    exact inv.of_running busy frame rfl nofun (phaseInv_of_seed rfl hd seeded)
  · rw [e]
    exact completeDigest_runInv inv busy d

/-- A phase that reads in range keeps the invariant when what it makes of the value does. -/
theorem settle_runInv {α : Type} {s t : State} {r : Reading α} {done : α → State}
    (range : StaysInRange r) (hd : ∀ v, r = .ok v → RunInv (done v)) (h : settle s r done = .next t) :
    RunInv t := by
  obtain ⟨v, e, rfl⟩ | ⟨off, e, -⟩ := settle_eq_next h
  · exact hd v e
  · exact absurd e (range off)

/-- R86: the phase after `P_DECODE`. -/
theorem decoded_runInv {i : Instr} {s : State} (inv : RunInv s) (busy : s.phase ≠ .pIdle)
    (hd : decode s.cmd = .ok i) : RunInv { s with phase := firstPhase i s.len } := by
  refine inv.of_running busy (phase_hidden_frame s _ _) rfl ?_ ?_
  · unfold firstPhase; split <;> nofun
  · by_cases long : isDigest i ∧ 64 < s.len.toNat
    · exact phaseInv_of_prime (by simp [firstPhase, long]) hd long.1 long.2
    · refine phaseInv_of_short (by simpa [firstPhase] using long) hd fun digest => ?_
      exact Nat.not_lt.mp fun hl => long ⟨digest, hl⟩

/-- R81: the loop invariant after priming. -/
theorem loopInv_primed {s : State} {h : Hidden} (long : 64 < s.len.toNat)
    (e : primePipeline truncRule s.buf s.len = .ok h) : LoopInv (primed s h) := by
  obtain ⟨hpos, hrem⟩ := primePipeline_pos_rem e
  have trunc := truncateLen_toNat (len := s.len) (by omega)
  have pos : h.pos.toNat = 0 := by rw [hpos]; rfl
  have rem : h.rem.toNat = 64 * ((s.len.toNat - 1) / 64) := by rw [hrem, trunc]
  exact ⟨long, by simp [pos], by simp [rem], by simp only [primed_hidden, rem]; omega,
    by simp only [primed_hidden, primed_len, pos, rem, trunc, Nat.zero_add]⟩

theorem primed_runInv {i : Instr} {s : State} {h : Hidden} (inv : RunInv s) (busy : s.phase ≠ .pIdle)
    (hd : decode s.cmd = .ok i) (digest : isDigest i) (long : 64 < s.len.toNat)
    (e : primePipeline truncRule s.buf s.len = .ok h) : RunInv (primed s h) :=
  inv.of_running busy (phase_hidden_frame s _ _) rfl nofun
    (phaseInv_of_block rfl hd digest (loopInv_primed long e))

/-- The block the loop is at ends at or before `LEN` (R84). -/
theorem LoopInv.block_le_len {s : State} (loop : LoopInv s) : s.hidden.pos.toNat + 64 ≤ s.len.toNat := by
  obtain ⟨long, -, rem, remains, total⟩ := loop
  rw [truncateLen_toNat (by omega)] at total
  omega

/-- R82, R83: the loop invariant after a block step that leaves a block. -/
theorem loopInv_blockDone {s : State} {h : Hidden} (loop : LoopInv s)
    (e : blockStep s.buf s.len s.hidden = .ok h) (more : h.rem ≠ 0) : LoopInv (blockDone s h) := by
  obtain ⟨hpos, hrem⟩ := blockStep_pos_rem e
  have block := loop.block_le_len
  obtain ⟨long, posBlocks, remBlocks, remains, total⟩ := loop
  have pos : h.pos.toNat = s.hidden.pos.toNat + 64 := by rw [hpos]; bv_omega
  have rem : h.rem.toNat = s.hidden.rem.toNat - 64 := by rw [hrem]; bv_omega
  have some : h.rem.toNat ≠ 0 := fun z => more (BitVec.eq_of_toNat_eq z)
  constructor <;> simp only [blockDone_hidden, blockDone_len] <;> omega

theorem blockDone_runInv {i : Instr} {s : State} {h : Hidden} (inv : RunInv s)
    (busy : s.phase ≠ .pIdle) (hd : decode s.cmd = .ok i) (digest : isDigest i) (loop : LoopInv s)
    (e : blockStep s.buf s.len s.hidden = .ok h) : RunInv (blockDone s h) := by
  have frame : SequencerFrame s (blockDone s h) := phase_hidden_frame s _ h
  by_cases last : h.rem = 0
  · have phase : (blockDone s h).phase = .pFinal := if_pos last
    exact inv.of_running busy frame rfl (by rw [phase]; nofun)
      (phaseInv_of_final phase hd digest loop.long last)
  · have phase : (blockDone s h).phase = .pBlock := if_neg last
    exact inv.of_running busy frame rfl (by rw [phase]; nofun)
      (phaseInv_of_block phase hd digest (loopInv_blockDone loop e last))

/-- Each phase keeps the invariant: what holds at the phase keeps its reads in range, and what it leaves
holds at the next. -/
theorem phaseOf_runInv {i : Instr} {s t : State} (inv : RunInv s) (busy : s.phase ≠ .pIdle)
    (hd : decode s.cmd = .ok i) (h : phaseOf i s = .next t) : RunInv t := by
  have hp := inv.phase
  have same {j : Instr} (hj : decode s.cmd = .ok j) : j = i := by rw [hd] at hj; cases hj; rfl
  unfold PhaseInv at hp
  unfold phaseOf at h
  cases phase : s.phase with
  | pIdle => exact absurd phase busy
  | pDecode =>
    simp only [phase] at h
    cases h
    exact decoded_runInv inv busy hd
  | pShort =>
    simp only [phase] at h hp
    split at h
    · exact settle_runInv (shortDigest_staysInRange _ _) (fun d _ => withDigest_runInv inv busy hd d) h
    · exact (exec_commandEnd h).runInv inv busy hd
  | pPrime =>
    simp only [phase] at h hp
    obtain ⟨j, hj, digest, long⟩ := hp
    exact settle_runInv (primePipeline_staysInRange _ _ long)
      (fun _ e => primed_runInv inv busy hj digest long e) h
  | pBlock =>
    simp only [phase] at h hp
    obtain ⟨j, hj, digest, loop⟩ := hp
    exact settle_runInv (blockStep_staysInRange _ loop.block_le_len)
      (fun _ e => blockDone_runInv inv busy hj digest loop e) h
  | pFinal =>
    simp only [phase] at h
    cases h
    exact withDigest_runInv inv busy hd _
  | pSeed d =>
    simp only [phase] at h
    cases h
    obtain ⟨d', e⟩ := seedPhase_eq i s d
    rw [e]
    exact completeDigest_runInv inv busy d'

theorem sequencer_runInv {s t : State} (inv : RunInv s)
    (h : sequenceCommand s = .next t ∨ sequencePhase s = .next t) : RunInv t := by
  rcases sequencer_cases h with ⟨-, rfl⟩ | ⟨busy, ⟨illegal, rfl⟩ | ⟨i, hd, e | e⟩⟩
  · exact inv
  · exact raiseIllegal_runInv inv illegal
  · exact (exec_commandEnd e).runInv inv busy hd
  · exact phaseOf_runInv inv busy hd e

/-! ### The host -/

/-- A write that takes effect keeps the invariant: no command runs, so nothing is asked of `LEN`. -/
theorem storeReg_runInv {s : State} (inv : RunInv s) (ready : runState s ≠ .busy) (r : HostReg) (v : Word) :
    RunInv (storeReg s r v) := by
  have idle : s.phase = .pIdle := not_not.mp fun hp => ready (inv.running.mpr hp)
  cases r with
  | cmd => exact startCommand_runInv inv _
  | len => exact inv.of_control rfl rfl rfl rfl inv.memory (phaseInv_of_idle idle)
  | op i => exact inv.of_control rfl rfl rfl rfl inv.memory (phaseInv_of_idle idle)
  | status => exact inv
  | finfo => exact inv
  | res i => exact inv

/-- A completed access keeps the invariant in every state: a write stores only while no command runs. -/
theorem completeAccess_runInv {s : State} (inv : RunInv s) (a : Access) :
    RunInv (completeAccess s a) := by
  cases a with
  | read r => exact inv.of_control rfl rfl rfl rfl inv.memory (phaseInv_congr inv.phase rfl rfl rfl rfl)
  | write r v =>
    show RunInv (writeReg s r v)
    rcases writeReg_cases s r v with ⟨ready, e⟩ | e
    · rw [e]
      exact storeReg_runInv inv (by rcases ready with h | h <;> rw [h] <;> decide) r v
    · rwa [e]

/-- The buffer and the host's side may be replaced at will: the invariant asks only the buffer's form. -/
theorem RunInv.with_hostSide {s : State} (inv : RunInv s) {buf : Memory} (wf : buf.wf = true)
    (held : List Access) (agenda : List Turn) :
    RunInv { s with buf := buf, held := held, agenda := agenda } :=
  inv.of_control rfl rfl rfl rfl wf (phaseInv_congr inv.phase rfl rfl rfl rfl)

theorem hostTurn_runInv {s t : State} {m : HostMove} (inv : RunInv s) (h : hostTurn s m = .next t) :
    RunInv t := by
  rcases hostTurn_movers h with ⟨a, -, rfl⟩ | ⟨held, rfl⟩ | ⟨-, buf, wf, rfl⟩ | ⟨-, rfl⟩
  · exact completeAccess_runInv inv a
  · exact inv.with_hostSide inv.memory held s.agenda
  · exact inv.with_hostSide (wf inv.memory) s.held s.agenda
  · exact resetEvent_runInv inv.memory

/-- Settles O57, by who moves in the step. -/
theorem invariantKeptByEveryStep : Obligations.InvariantKeptByEveryStep := by
  intro s t inv h
  rcases step_movers h with ⟨a, rest, -, -, rfl⟩ | ⟨m, rest, -, hm⟩ | ⟨rest, -, rfl⟩ | ⟨-, turns, hs⟩
  · exact completeAccess_runInv (inv.with_hostSide inv.memory rest s.agenda) a
  · exact hostTurn_runInv (inv.with_hostSide inv.memory s.held rest) hm
  · exact inv.with_hostSide inv.memory s.held rest
  · exact sequencer_runInv (inv.with_hostSide inv.memory s.held turns) hs

/-- Settles O58, clause by clause: the buffer is empty, `STATUS` is 0 and the sequencer is idle. -/
theorem invariantAtReset : Obligations.InvariantAtReset where
  memory := wf_nil
  reserved := by decide
  noCause _ := by decide
  fault h := absurd h (by decide)
  running := by decide
  phase := trivial

end Sys2Proof.Machine
end

section
/-! O6, O45, O46, O47, O55: the registers of R18, and the host's accesses while a command runs, when it
has ended, and when it starts the next. -/

namespace Sys2Proof.Machine

/-! ### The registers (R18) -/

/-- A number names the register that has it, and no other (R18). -/
theorem regOfNumber_eq_some (n : Nat) (r : HostReg) : regOfNumber n = some r ↔ regNumber r = n := by
  constructor
  · intro h
    unfold regOfNumber at h
    split at h <;> cases h <;> rfl
  · rintro rfl
    cases r with
    | op i => fin_cases i <;> rfl
    | res i => fin_cases i <;> rfl
    | _ => rfl

/-- R18: a number above 11 is not part of CH64. -/
theorem regOfNumber_of_gt {n : Nat} (h : 11 < n) : regOfNumber n = none := by
  unfold regOfNumber
  split
  case h_13 => rfl
  all_goals omega

/-- The two bits of `STATE` and what `STATE` is. -/
theorem stateBits_of_runState {s : State} {r : RunState} (h : runState s = r) :
    s.status.extractLsb' 0 2 = (stateCode r).extractLsb' 0 2 := by
  rw [stateBits_eq, ← h, runState]

/-- A field of `STATUS` as the host reads it, zero-extended: the mask of R14 applied to the field. -/
theorem readStatus_field (s : State) {lo n : Nat} (h : lo + n ≤ 64) :
    (readReg s .status).extractLsb' lo n =
      s.status.extractLsb' lo n &&& (0x000000F3#32).extractLsb' lo n := by
  rw [← BitVec.extractLsb'_and, ← statusRead]
  refine BitVec.eq_of_getLsbD_eq fun i hi => ?_
  simp [readReg, hi, show lo + i < 64 by omega]

/-- R14: a read of `STATUS` shows `STATE` and `CAUSE`, and 0 in the reserved bits. -/
theorem readStatus_fields (s : State) :
    (readReg s .status).extractLsb' 0 2 = s.status.extractLsb' 0 2 ∧
    (readReg s .status).extractLsb' 2 2 = 0 ∧
    (readReg s .status).extractLsb' 4 4 = s.status.extractLsb' 4 4 ∧
    (readReg s .status).extractLsb' 8 56 = 0 := by
  have kept : (0x000000F3#32).extractLsb' 0 2 = BitVec.allOnes 2 ∧
      (0x000000F3#32).extractLsb' 4 4 = BitVec.allOnes 4 := by decide
  have cleared : (0x000000F3#32).extractLsb' 2 2 = 0#2 ∧
      (0x000000F3#32).extractLsb' 8 56 = 0#56 := by decide
  refine ⟨?_, ?_, ?_, ?_⟩
  · rw [readStatus_field s (by omega), kept.1, BitVec.and_allOnes]
  · rw [readStatus_field s (by omega), cleared.1]; exact BitVec.and_zero
  · rw [readStatus_field s (by omega), kept.2, BitVec.and_allOnes]
  · rw [readStatus_field s (by omega), cleared.2]; exact BitVec.and_zero

/-- R13, R18: a write in `IDLE` or `DONE` stores. -/
theorem writeReg_of_idle_or_done {s : State} (h : runState s = .idle ∨ runState s = .done)
    (r : HostReg) (v : Word) : writeReg s r v = storeReg s r v :=
  writeReg_of_ready (by rcases h with h | h <;> rw [h] <;> decide)
    (by rcases h with h | h <;> rw [h] <;> decide) r v

/-- R40: the two fields of `STATUS` after a command is started. -/
theorem startCommand_statusFields (s : State) (c : CmdWord) :
    (startCommand s c).status.extractLsb' 0 2 = 1 ∧ (startCommand s c).status.extractLsb' 4 4 = 0 :=
  ⟨stateBits_of_runState (runState_startCommand s c), statusCause_setStatusCause 0 _⟩

/-- R10, R18: an operand register written, and every other kept. -/
theorem readReg_storeReg_op (s : State) (i j : Fin 6) (v : Word) :
    readReg (storeReg s (.op i) v) (.op j) = if j = i then v else readReg s (.op j) :=
  readOp_writeOp s.ops i j v

/-- Settles O45: the numbers, the reads, and the writes by what `STATE` is. -/
theorem registerAccessTable : Obligations.RegisterAccessTable := by
  refine ⟨⟨rfl, rfl, rfl, rfl, fun _ => rfl, fun _ => rfl⟩, regOfNumber_eq_some,
    fun _ => regOfNumber_of_gt,
    fun s => ⟨rfl, rfl, rfl, rfl, rfl, rfl, rfl, rfl, rfl, rfl, rfl, readStatus_fields s⟩,
    fun s v ready => ?_, fun s r v h => writeReg_of_fault h r v⟩
  simp only [writeReg_of_idle_or_done ready]
  obtain ⟨state, cause⟩ := startCommand_statusFields s (v.setWidth 32)
  exact ⟨⟨_, rfl, rfl, state, cause, rfl, rfl⟩, rfl,
    fun i => ⟨_, rfl, rfl, fun j => readReg_storeReg_op s i j v⟩, rfl, rfl, fun _ => rfl⟩

/-! ### Accesses while a command runs, and after it (R19) -/

/-- R19: while a command runs only a read of `STATUS` need not wait. -/
theorem heldWhileBusy_of_ne {a : Access} (h : a ≠ .read .status) : heldWhileBusy a = true := by
  cases a with
  | read r => exact decide_eq_true fun e => h (e ▸ rfl)
  | write r v => rfl

/-- R19: an access that must wait is held. -/
theorem accessTurn_of_busy {s : State} {a : Access} (hb : runState s = .busy)
    (ha : a ≠ .read .status) : accessTurn s a = { s with held := s.held ++ [a] } := by
  unfold accessTurn
  rw [if_pos ⟨hb, heldWhileBusy_of_ne ha⟩]

/-- R19: a read of `STATUS` completes in every state. -/
theorem accessTurn_readStatus (s : State) :
    accessTurn s (.read .status) = completeRead s .status := by
  unfold accessTurn
  rw [if_neg (by simp [heldWhileBusy])]
  rfl

/-- Settles O46: the step is the host's turn, and the access completes or is held. -/
theorem busyHoldsAccesses : Obligations.BusyHoldsAccesses := by
  intro s a rest busy ha
  have turn := step_of_host (.inl busy) ha
  refine ⟨?_, fun ne => ?_⟩
  · rintro rfl
    refine ⟨readReg s .status, ?_, ?_⟩
    · rw [(readStatus_fields s).1]; exact stateBits_of_runState busy
    · rw [turn]; exact congrArg Host.Outcome.next (accessTurn_readStatus _)
  · rw [turn]; exact congrArg Host.Outcome.next (accessTurn_of_busy busy ne)

/-- A completed access leaves the agenda and the held accesses. -/
theorem completeAccess_hostSide (s : State) (a : Access) :
    (completeAccess s a).held = s.held ∧ (completeAccess s a).agenda = s.agenda := by
  cases a with
  | read r => exact ⟨rfl, rfl⟩
  | write r v =>
    show (writeReg s r v).held = s.held ∧ (writeReg s r v).agenda = s.agenda
    rcases writeReg_cases s r v with ⟨-, e⟩ | e
    · rw [e]; cases r <;> exact ⟨rfl, rfl⟩
    · rw [e]; exact ⟨rfl, rfl⟩

/-- Settles O47: the step completes the oldest held access, a write by what `STATE` is. -/
theorem heldAccessCompletes : Obligations.HeldAccessCompletes := by
  intro s a rest idle hheld
  let s' : State := { s with held := rest }
  have write (r : HostReg) (v : Word) (hf : runState s ≠ .fault) :
      completeAccess s' (.write r v) = storeReg s' r v :=
    writeReg_of_ready (s := s') hf idle r v
  obtain ⟨held, agenda⟩ := completeAccess_hostSide s' a
  refine ⟨_, step_of_held idle hheld, held, agenda, ?_, ?_, ?_, ?_, ?_⟩
  · rintro r rfl; rfl
  · rintro r v rfl hf; exact writeReg_of_fault (s := s') hf r v
  · rintro v rfl hf; exact write .len v hf
  · rintro i v rfl hf; exact write (.op i) v hf
  · rintro v rfl hf
    rw [show completeAccess _ _ = startCommand s' (v.setWidth 32) from write .cmd v hf]
    exact ⟨rfl, runState_startCommand _ _, rfl⟩

/-! ### A word written to `CMD` runs next (R13, R40) -/

/-- R43: the word of an instruction decodes to it. -/
theorem decode_encode (i : Instr) : decode (encode i) = .ok i := by
  cases i with
  | rotr sh => revert sh; decide
  | _ => rfl

/-- With nothing held that could complete, the step is the sequencer's turn. -/
theorem step_of_command {s : State} {rest : List Turn} (hh : runState s = .busy ∨ s.held = [])
    (ha : s.agenda = .command :: rest) : step s = sequenceCommand { s with agenda := rest } := by
  rcases step_cases s with ⟨hn, a, r, hr, -⟩ |
    ⟨-, ⟨h, -⟩ | ⟨r, hr, e⟩ | ⟨r, hr, -⟩ | ⟨m, r, hr, -⟩ | ⟨r, hr, -⟩⟩
  · rcases hh with h | h
    · exact absurd h hn
    · rw [h] at hr; cases hr
  · rw [ha] at h; cases h
  · rw [ha] at hr; cases hr; exact e
  · rw [ha] at hr; cases hr
  · rw [ha] at hr; cases hr
  · rw [ha] at hr; cases hr

/-- R40: at `P_DECODE` the sequencer runs the instruction whose word is in `CMD`. -/
theorem sequenceCommand_of_decoded {s : State} {i : Instr} (hp : s.phase = .pDecode)
    (hd : decode s.cmd = .ok i) : sequenceCommand s = exec i s := by
  unfold sequenceCommand
  rw [if_pos hp, hd]

/-- Settles O6: the host's turn starts the command, and the sequencer's turn runs it. -/
theorem writtenCommandRunsNext : Obligations.WrittenCommandRunsNext := by
  intro s i rest ready hheld ha
  let s' : State := { s with agenda := .command :: rest }
  have ready' : runState s' = .idle ∨ runState s' = .done := ready
  have word : ((encode i).setWidth 64).setWidth 32 = encode i := by
    rw [BitVec.setWidth_setWidth_of_le _ (by omega), BitVec.setWidth_eq]
  have start : step s = .next (startCommand s' (encode i)) := by
    have notBusy : runState s' ≠ .busy := by rcases ready' with h | h <;> rw [h] <;> decide
    rw [step_of_host (.inr hheld) ha]
    refine congrArg Host.Outcome.next ((accessTurn_of_not_busy notBusy _).trans ?_)
    exact (writeReg_of_idle_or_done ready' .cmd _).trans (congrArg (startCommand s') word)
  obtain ⟨state, cause⟩ := startCommand_statusFields s' (encode i)
  refine ⟨_, start, rfl, state, cause, rfl, rfl, rfl, rfl, rfl, rfl, ?_⟩
  rw [step_of_command (.inl (runState_startCommand _ _)) rfl]
  exact sequenceCommand_of_decoded rfl (decode_encode i)

/-- Settles O55: the constants and the reset values as R9 and R22 list them. -/
theorem resetStateValues : Obligations.ResetStateValues :=
  ⟨rfl, rfl, rfl, rfl, rfl, rfl, rfl, rfl, rfl, rfl, rfl⟩

end Sys2Proof.Machine
end

section
/-! O34, O36 and O37: what a buffer read gives (R26 to R28), and that every stop at an unbacked byte of a
rule that reads the buffer is below `LEN`. -/

namespace Sys2Proof.Machine

/-! ### The range check (R27) -/

/-- R27: a read stops with `BufRange` exactly when it ends beyond `LEN`. -/
theorem memRead_eq_outOfRange_iff (m : Memory) (len : Word) (off n : Nat) :
    memRead m len off n = .error (.outOfRange off) ↔ len.toNat < off + n := by
  refine ⟨fun e => ?_, memRead_of_not_inRange⟩
  by_contra h
  exact memRead_staysInRange m (by omega) off e

/-- Settles O36, from what a read beyond `LEN` gives; a read of one byte or more with `LEN = 0` is one. -/
theorem rangeCheckIsUnbounded : Obligations.RangeCheckIsUnbounded := by
  intro m len off n
  refine ⟨by omega, memRead_eq_outOfRange_iff m len off n, ?_, fun s done beyond => ?_⟩
  · rintro rfl atLeastOne
    exact memRead_of_not_inRange (Nat.lt_of_lt_of_le atLeastOne (Nat.le_add_left n off))
  · rw [memRead_of_not_inRange beyond]
    rfl

/-! ### Reads of two widths (R28) -/

/-- R26: the bytes of a read, split after the first `a`. -/
theorem bytesValue_add (m : Memory) (off a b : Nat) :
    bytesValue m off (a + b) = bytesValue m off a + 2 ^ (8 * a) * bytesValue m (off + a) b := by
  unfold bytesValue
  rw [List.range_add, List.map_append, List.sum_append, List.map_map, ← List.sum_map_mul_left]
  congr 2
  refine List.map_congr_left fun k _ => ?_
  simp only [Function.comp_apply, Nat.add_assoc, Nat.mul_add, pow_add]
  ring

/-- R30: at most eight bytes fit in a word. -/
theorem wordAt_toNat (m : Memory) (off : Nat) {n : Nat} (h : n ≤ 8) :
    (wordAt m off n).toNat = bytesValue m off n := by
  rw [wordAt, BitVec.toNat_ofNat]
  exact Nat.mod_eq_of_lt ((bytesValue_lt m off n).trans_le (Nat.pow_le_pow_right (by omega) (by omega)))

/-- A read that gives a value was in range, found every byte bound, and gives their number. -/
theorem memRead_eq_ok {m : Memory} {len : Word} {off n : Nat} {v : Word}
    (h : memRead m len off n = .ok v) :
    off + n ≤ len.toNat ∧ BackedAt m off n ∧ v = wordAt m off n := by
  rcases memRead_cases m len off n with ⟨-, e⟩ | ⟨hr, hb, e⟩ | ⟨-, k, -, -, e⟩
  · rw [h] at e; cases e
  · rw [h] at e; cases e; exact ⟨hr, hb, rfl⟩
  · rw [h] at e; cases e

/-- R28: a read of at most eight bytes is its first `a` bytes and the others above them. -/
theorem memRead_split {m : Memory} {len : Word} {off a b : Nat} {v : Word} (h8 : a + b ≤ 8)
    (h : memRead m len off (a + b) = .ok v) :
    ∃ lo hi, memRead m len off a = .ok lo ∧ memRead m len (off + a) b = .ok hi ∧
      v.toNat = lo.toNat + 2 ^ (8 * a) * hi.toNat ∧ lo.toNat < 2 ^ (8 * a) := by
  obtain ⟨hr, backed, rfl⟩ := memRead_eq_ok h
  have backedLo : BackedAt m off a := fun k hk => backed k (by omega)
  have backedHi : BackedAt m (off + a) b := fun k hk => by
    rw [Nat.add_assoc]
    exact backed (a + k) (by omega)
  refine ⟨_, _, memRead_of_backed (by omega) backedLo, memRead_of_backed (by omega) backedHi, ?_⟩
  rw [wordAt_toNat m off h8, wordAt_toNat m off (by omega), wordAt_toNat m (off + a) (by omega)]
  exact ⟨bytesValue_add m off a b, bytesValue_lt m off a⟩

/-- Settles O37: the wide read is the low bytes plus the high bytes times `2^(8a)`, so the narrow reads
are its remainder and its quotient. -/
theorem mixedWidthReadsAgree : Obligations.MixedWidthReadsAgree := by
  intro m len off v a _ n hn lt h
  have n8 : n ≤ 8 := by
    simp only [List.mem_cons, List.not_mem_nil, or_false] at hn
    omega
  obtain ⟨b, rfl⟩ := Nat.exists_eq_add_of_le lt.le
  obtain ⟨lo, hi, readLo, readHi, value, small⟩ := memRead_split n8 h
  rw [Nat.add_sub_cancel_left, value]
  refine ⟨⟨lo, readLo, ?_⟩, fun _ => ⟨hi, readHi, ?_⟩⟩
  · rw [Nat.add_mul_mod_self_left, Nat.mod_eq_of_lt small]
  · rw [Nat.add_mul_div_left _ _ (Nat.two_pow_pos _), Nat.div_eq_of_lt small, Nat.zero_add]

/-! ### Where a rule that reads the buffer stops (R34, U6) -/

/-- A stop of the reading at an unbacked byte is below `LEN`, at an offset the host has bound no byte at. -/
def StopsUnbacked (m : Memory) (len : Word) {α : Type} (r : Reading α) : Prop :=
  ∀ off, r = .error (.unbacked off) → off < len.toNat ∧ byteAt m off = none

theorem stopsUnbacked_ok {m : Memory} {len : Word} {α : Type} (v : α) :
    StopsUnbacked m len (.ok v : Reading α) := fun _ => nofun

theorem stopsUnbacked_bind {m : Memory} {len : Word} {α β : Type} {r : Reading α} {f : α → Reading β}
    (hr : StopsUnbacked m len r) (hf : ∀ v, StopsUnbacked m len (f v)) :
    StopsUnbacked m len (r >>= f) := by
  intro off e
  rcases reading_bind_eq_error e with e | ⟨v, -, e⟩
  · exact hr off e
  · exact hf v off e

section Stops

variable (m : Memory) (len : Word)

theorem memRead_stopsUnbacked (off n : Nat) : StopsUnbacked m len (memRead m len off n) := by
  intro a h
  rcases memRead_cases m len off n with ⟨-, e⟩ | ⟨-, -, e⟩ | ⟨hr, k, hk, hn, e⟩
  · rw [h] at e; cases e
  · rw [h] at e; cases e
  · rw [h] at e; cases e; exact ⟨by omega, hn⟩

theorem weakHashBuf_stopsUnbacked (off : Nat) (a b : Word) :
    StopsUnbacked m len (weakHashBuf m len off a b) := by
  unfold weakHashBuf
  repeat refine stopsUnbacked_bind (memRead_stopsUnbacked m len _ _) fun _ => ?_
  exact stopsUnbacked_ok _

/-- Every handler up to 64 bytes is a sequence of reads, the one of `LEN = 0` the empty one. -/
theorem shortDigest_stopsUnbacked : StopsUnbacked m len (shortDigest m len) := by
  unfold shortDigest len1to3 len4to7 len8to16 len17to32 len33to64
  dsimp only
  repeat' split
  all_goals
    repeat refine stopsUnbacked_bind (memRead_stopsUnbacked m len _ _) fun _ => ?_
    exact stopsUnbacked_ok _

theorem primePipeline_stopsUnbacked (rule : TruncRule) :
    StopsUnbacked m len (primePipeline rule m len) := by
  unfold primePipeline
  dsimp only
  iterate 5 refine stopsUnbacked_bind (memRead_stopsUnbacked m len _ _) fun _ => ?_
  iterate 2 refine stopsUnbacked_bind (weakHashBuf_stopsUnbacked m len _ _ _) fun _ => ?_
  exact stopsUnbacked_bind (memRead_stopsUnbacked m len _ _) fun _ => stopsUnbacked_ok _

theorem blockStep_stopsUnbacked (h : Hidden) : StopsUnbacked m len (blockStep m len h) := by
  unfold blockStep
  dsimp only
  iterate 3 refine stopsUnbacked_bind (memRead_stopsUnbacked m len _ _) fun _ => ?_
  refine stopsUnbacked_bind (weakHashBuf_stopsUnbacked m len _ _ _) fun _ => ?_
  refine stopsUnbacked_bind (memRead_stopsUnbacked m len _ _) fun _ => ?_
  exact stopsUnbacked_bind (weakHashBuf_stopsUnbacked m len _ _ _) fun _ => stopsUnbacked_ok _

theorem blockLoop_stopsUnbacked (fuel : Nat) (h : Hidden) :
    StopsUnbacked m len (blockLoop m len fuel h) := by
  induction fuel generalizing h with
  | zero => exact stopsUnbacked_ok _
  | succ fuel ih =>
    refine stopsUnbacked_bind (blockStep_stopsUnbacked m len h) fun h' => ?_
    split
    · exact stopsUnbacked_ok _
    · exact ih h'

theorem digestOf_stopsUnbacked (rule : TruncRule) : StopsUnbacked m len (digestOf rule m len) := by
  unfold digestOf
  split
  · exact stopsUnbacked_bind (primePipeline_stopsUnbacked m len rule) fun h =>
      stopsUnbacked_bind (blockLoop_stopsUnbacked m len _ h) fun _ => stopsUnbacked_ok _
  · exact shortDigest_stopsUnbacked m len

end Stops

/-! ### The digest commands (R34, R77, R84) -/

/-- A command whose result is made from the digest ends `DONE`, or stops at an unbacked byte below `LEN`. -/
theorem settle_digest_endsDone_or_unbacked (s : State) (result : Word → Word) :
    (∃ t, settle s (digestOf truncRule s.buf s.len) (fun d => completeDigest s (result d)) = .next t ∧
      EndsDone s t) ∨
    ∃ off, off < s.len.toNat ∧ byteAt s.buf off = none ∧
      settle s (digestOf truncRule s.buf s.len) (fun d => completeDigest s (result d)) =
        .fault (.unbackedByte off) := by
  rcases settle_cases s (digestOf truncRule s.buf s.len) (fun d => completeDigest s (result d)) with
    ⟨d, -, e⟩ | ⟨off, stop, -⟩ | ⟨off, stop, e⟩
  · exact .inl ⟨_, e, (completeDigest_digestResult s _).ends⟩
  · exact absurd stop (digestOf_staysInRange s.buf s.len off)
  · obtain ⟨below, unbound⟩ := digestOf_stopsUnbacked s.buf s.len truncRule off stop
    exact .inr ⟨off, below, unbound, e⟩

/-- R14: a command that ended `DONE` is not in the fault state. -/
theorem EndsDone.ne_fault {s t : State} (h : EndsDone s t) : t.status.extractLsb' 0 2 ≠ 3 := by
  rw [h.state]
  decide

/-- Settles O34: a digest command ends as its digest does, and of the ends of a command only `BufRange`
is in the fault state. -/
theorem digestsStayInRange : Obligations.DigestsStayInRange := by
  intro s i
  refine ⟨fun digest => ?_, fun t h fault => ?_⟩
  · cases i with
    | hash => exact settle_digest_endsDone_or_unbacked s id
    | hashs => exact settle_digest_endsDone_or_unbacked s (seedMix · k2 s.ops.o1)
    | hashss => exact settle_digest_endsDone_or_unbacked s (seedMix · s.ops.o0 s.ops.o1)
    | _ => cases digest
  · cases exec_commandEnd h with
    | one v => exact absurd fault (completeOne_oneResult s v).rest.ends.ne_fault
    | pair p => exact absurd fault (completePair_twoResults s p).rest.ends.ne_fault
    | digest d => exact absurd fault (completeDigest_digestResult s d).ends.ne_fault
    | bufRange info can => exact can

end Sys2Proof.Machine
end

section
/-! O38 and O39: who changes the buffer, and when not even the host may (R32, R33, R110). -/

namespace Sys2Proof.Machine

/-- No register access touches the buffer (R18). -/
theorem completeAccess_buf (s : State) (a : Access) : (completeAccess s a).buf = s.buf := by
  cases a with
  | read r => rfl
  | write r v =>
    show (writeReg s r v).buf = s.buf
    rcases writeReg_cases s r v with ⟨-, e⟩ | e
    · rw [e]; cases r <;> rfl
    · rw [e]

theorem accessTurn_buf (s : State) (a : Access) : (accessTurn s a).buf = s.buf := by
  rcases accessTurn_cases s a with ⟨-, e⟩ | e
  · rw [e]
  · rw [e]; exact completeAccess_buf s a

/-- R110: a host move that changes the buffer binds it, changes a byte or releases it. -/
theorem hostTurn_buf {s t : State} {m : HostMove} (h : hostTurn s m = .next t) :
    t.buf = s.buf ∨ (∃ bytes, m = .bind bytes) ∨ (∃ off b, m = .poke off b) ∨ m = .release := by
  cases m with
  | access a => cases h; exact .inl (accessTurn_buf s a)
  | bind bytes => exact .inr (.inl ⟨bytes, rfl⟩)
  | poke off b => exact .inr (.inr (.inl ⟨off, b, rfl⟩))
  | release => exact .inr (.inr (.inr rfl))
  | reset => cases h; exact .inl rfl

/-- Settles O38, by who moves: a completed access and the sequencer keep the buffer, and of the host's
moves only those of the buffer change it. -/
theorem onlyTheHostChangesTheBuffer : Obligations.OnlyTheHostChangesTheBuffer := by
  intro s t h
  rcases step_movers h with ⟨a, rest, -, -, rfl⟩ | ⟨m, rest, ha, hm⟩ | ⟨rest, -, rfl⟩ |
    ⟨-, turns, hs⟩
  · exact .inl (completeAccess_buf _ a)
  · rcases hostTurn_buf hm with e | ⟨bytes, rfl⟩ | ⟨off, b, rfl⟩ | rfl
    · exact .inl e
    · exact .inr ⟨rest, .inl ⟨bytes, ha⟩⟩
    · exact .inr ⟨rest, .inr (.inl ⟨off, b, ha⟩)⟩
    · exact .inr ⟨rest, .inr (.inr ha)⟩
  · exact .inl rfl
  · exact .inl (sequencer_frame hs).buf

/-- U5: while a command runs no move of the buffer is made. -/
theorem bufferTurn_of_busy {s : State} (h : runState s = .busy) (m : Memory) :
    bufferTurn s m = .refused .bufferMoveWhileBusy := if_pos h

/-- Settles O39: the step is the host's turn, and each of the three moves is a move of the buffer. -/
theorem bufferMoveRefusedWhileBusy : Obligations.BufferMoveRefusedWhileBusy := by
  intro s m rest busy ha move
  rw [step_of_host (.inl busy) ha]
  have refused := bufferTurn_of_busy (s := { s with agenda := rest }) busy
  rcases move with ⟨bytes, rfl⟩ | ⟨off, b, rfl⟩ | rfl
  · exact refused _
  · exact refused _
  · exact refused _

end Sys2Proof.Machine
end

section
/-! O1, O2, O3: a command word and the instruction it decodes to (R39 to R45, R47). What the opcode map can
answer is said once (`decodeFields_cases`), and words are compared field by field (`eq_iff_fieldsOf_eq`). -/

namespace Sys2Proof.Machine

/-! ### A word and its fields -/

/-- R39, R47: packing drops no bit of a field and sets none of bits 31:16. -/
theorem fieldsOf_packWord (op : BitVec 8) (sh : BitVec 6) (wd : BitVec 2) :
    fieldsOf (packWord op sh wd) = ⟨op, sh, wd, 0⟩ := by
  have word : (packWord op sh wd).toNat = op.toNat + 2 ^ 8 * sh.toNat + 2 ^ 14 * wd.toNat := by
    simp only [packWord, BitVec.toNat_add, BitVec.toNat_shiftLeft, Nat.shiftLeft_eq, BitVec.toNat_setWidth]
    omega
  have field (lo n : Nat) (v : BitVec n)
      (h : (op.toNat + 2 ^ 8 * sh.toNat + 2 ^ 14 * wd.toNat) / 2 ^ lo % 2 ^ n = v.toNat) :
      (packWord op sh wd).extractLsb' lo n = v :=
    BitVec.eq_of_toNat_eq (by rw [BitVec.extractLsb'_toNat, word, Nat.shiftRight_eq_div_pow, h])
  rw [fieldsOf, field 0 8 op (by omega), field 8 6 sh (by omega), field 14 2 wd (by omega),
    field 16 16 0 (by show _ = 0; omega)]

/-- A masked word is its fields, each masked with that field of the mask. -/
theorem fieldsOf_and (c m : CmdWord) :
    fieldsOf (c &&& m) =
      ⟨(fieldsOf c).op &&& (fieldsOf m).op, (fieldsOf c).sh &&& (fieldsOf m).sh,
        (fieldsOf c).wd &&& (fieldsOf m).wd, (fieldsOf c).zero &&& (fieldsOf m).zero⟩ := by
  simp only [fieldsOf, BitVec.extractLsb'_and]

/-- R39: a word is its four fields. -/
theorem eq_iff_fieldsOf_eq {c d : CmdWord} : c = d ↔ fieldsOf c = fieldsOf d :=
  ⟨congrArg fieldsOf, eq_of_fieldsOf_eq⟩

/-! ### The opcode map (R43, R45) -/

/-- Everything the opcode map can answer when bits 31:16 are 0: the format of a row, or the rejection of a
reserved operation code. -/
theorem decodeFields_cases {f : CmdFields} (hz : f.zero = 0) :
    (f.op = 1 ∧ decodeFields f = formatCS f .rotr) ∨
    (f.op = 2 ∧ decodeFields f = formatCW f .bswapB .bswapH .bswapW .bswapD) ∨
    (f.op = 3 ∧ decodeFields f = formatCW f .fetchB .fetchH .fetchW .fetchD) ∨
    (∃ j, (f.op ≠ 1 ∧ f.op ≠ 2 ∧ f.op ≠ 3) ∧ encode j = packWord f.op 0 0 ∧
      decodeFields f = formatC0 f j) ∨
    (f.opOk = false ∧ decodeFields f = .error .reservedOp) := by
  have code {n : Nat} (h : f.op.toNat = n) : f.op = BitVec.ofNat 8 n := by
    rw [← h, BitVec.ofNat_toNat, BitVec.setWidth_eq]
  unfold decodeFields
  rw [if_neg (not_not.mpr hz)]
  split
  case h_1 h => exact .inl ⟨code h, rfl⟩
  case h_2 h => exact .inr (.inl ⟨code h, rfl⟩)
  case h_3 h => exact .inr (.inr (.inl ⟨code h, rfl⟩))
  case h_13 =>
    refine .inr (.inr (.inr (.inr ⟨?_, rfl⟩)))
    simp only [CmdFields.opOk, Bool.or_eq_false_iff, Bool.and_eq_false_iff, decide_eq_false_iff_not]
    simp only [imp_false] at *
    omega
  -- the nine codes of format `C0`
  all_goals
    next h =>
      refine .inr (.inr (.inr (.inl ⟨_, ?_, ?_, rfl⟩))) <;> rw [code h]
      · decide
      · rfl

section Formats

variable {f : CmdFields} {i : Instr}

/-- R41: what format `C0` accepts is encoded by the word of its fields. -/
theorem encode_of_formatC0 {j : Instr} (hj : encode j = packWord f.op 0 0) (h : formatC0 f j = .ok i) :
    encode i = packWord f.op f.sh f.wd := by
  obtain ⟨hsh, hwd, rfl⟩ := formatC0_eq_ok.mp h
  rw [hsh, hwd, hj]

/-- R41: what format `CW` accepts is encoded by the word of its fields. -/
theorem encode_of_formatCW {b h w d : Instr} (hb : encode b = packWord f.op 0 0)
    (hh : encode h = packWord f.op 0 1) (hw : encode w = packWord f.op 0 2)
    (hd : encode d = packWord f.op 0 3) (ok : formatCW f b h w d = .ok i) :
    encode i = packWord f.op f.sh f.wd := by
  obtain ⟨hsh, row⟩ := formatCW_eq_ok.mp ok
  rw [hsh]
  rcases row with ⟨hwd, rfl⟩ | ⟨hwd, rfl⟩ | ⟨hwd, rfl⟩ | ⟨hwd, rfl⟩ <;> rw [hwd]
  exacts [hb, hh, hw, hd]

/-- R43, R47: an instruction read from a word's fields is encoded by the word of those fields. -/
theorem encode_of_decodeFields (h : decodeFields f = .ok i) :
    f.zero = 0 ∧ encode i = packWord f.op f.sh f.wd := by
  have hz : f.zero = 0 := by
    by_contra hz
    rw [decodeFields, if_pos hz] at h
    cases h
  refine ⟨hz, ?_⟩
  rcases decodeFields_cases hz with ⟨hop, e⟩ | ⟨hop, e⟩ | ⟨hop, e⟩ | ⟨j, -, hj, e⟩ | ⟨-, e⟩ <;> rw [e] at h
  · obtain ⟨hwd, rfl⟩ := formatCS_eq_ok.mp h
    rw [hop, hwd, encode]
  · apply encode_of_formatCW _ _ _ _ h <;> rw [hop] <;> rfl
  · apply encode_of_formatCW _ _ _ _ h <;> rw [hop] <;> rfl
  · exact encode_of_formatC0 hj h
  · cases h

end Formats

/-- Settles O1: packing the fields of a word gives a word with the same fields, which is the word. -/
theorem decodeInvertsEncode : Obligations.DecodeInvertsEncode := by
  intro c i
  constructor
  · intro h
    obtain ⟨hz, word⟩ := encode_of_decodeFields h
    rw [eq_iff_fieldsOf_eq, word, fieldsOf_packWord, ← hz]
  · rintro rfl
    exact decode_encode i

/-! ### The legal words (R45) -/

/-- R45: the word of every instruction is legal. -/
theorem encode_legal (i : Instr) : (fieldsOf (encode i)).legal = true := by
  cases i with
  | rotr sh => exact Laws.EncodedLegal.rotr sh
  | _ => rfl

/-- R45: `CmdFields.legal` is the four clauses. -/
theorem legal_iff (f : CmdFields) :
    f.legal = true ↔ f.zero = 0 ∧ f.opOk = true ∧ (f.sh = 0 ∨ f.op = 1) ∧
      (f.wd = 0 ∨ f.op = 2 ∨ f.op = 3) := by
  simp only [CmdFields.legal, CmdFields.zeroOk, CmdFields.shiftOk, CmdFields.widthOk, Bool.and_eq_true,
    Bool.or_eq_true, beq_iff_eq, and_assoc, or_assoc]

/-- R45 clause 2, with the three digest codes listed. -/
theorem opOk_iff (f : CmdFields) :
    f.opOk = true ↔ (1 ≤ f.op.toNat ∧ f.op.toNat ≤ 9) ∨ f.op.toNat ∈ [0x10, 0x11, 0x12] := by
  simp only [CmdFields.opOk, Bool.or_eq_true, Bool.and_eq_true, decide_eq_true_eq, List.mem_cons,
    List.not_mem_nil, or_false]
  omega

/-- R45: every legal word is a command. -/
theorem exists_decodeFields_of_legal {f : CmdFields} (h : f.legal = true) :
    ∃ i, decodeFields f = .ok i := by
  obtain ⟨hz, hop, hsh, hwd⟩ := (legal_iff f).mp h
  have width : f.wd = 0 ∨ f.wd = 1 ∨ f.wd = 2 ∨ f.wd = 3 := by generalize f.wd = wd; revert wd; decide
  have format {b h w d : Instr} (hop : f.op ≠ 1) : ∃ i, formatCW f b h w d = .ok i := by
    have hsh := hsh.resolve_right hop
    rcases width with hwd | hwd | hwd | hwd
    · exact ⟨b, formatCW_eq_ok.mpr ⟨hsh, .inl ⟨hwd, rfl⟩⟩⟩
    · exact ⟨h, formatCW_eq_ok.mpr ⟨hsh, .inr (.inl ⟨hwd, rfl⟩)⟩⟩
    · exact ⟨w, formatCW_eq_ok.mpr ⟨hsh, .inr (.inr (.inl ⟨hwd, rfl⟩))⟩⟩
    · exact ⟨d, formatCW_eq_ok.mpr ⟨hsh, .inr (.inr (.inr ⟨hwd, rfl⟩))⟩⟩
  rcases decodeFields_cases hz with ⟨e1, e⟩ | ⟨e2, e⟩ | ⟨e3, e⟩ | ⟨j, ⟨h1, h2, h3⟩, -, e⟩ | ⟨reserved, -⟩
  · rw [e]
    exact ⟨_, formatCS_eq_ok.mpr ⟨hwd.resolve_right (by rw [e1]; decide), rfl⟩⟩
  · rw [e]; exact format (by rw [e2]; decide)
  · rw [e]; exact format (by rw [e3]; decide)
  · rw [e]
    exact ⟨j, formatC0_eq_ok.mpr ⟨hsh.resolve_right h1, hwd.resolve_right (not_or.mpr ⟨h2, h3⟩), rfl⟩⟩
  · rw [hop] at reserved; cases reserved

/-- R45: the words that decode are the legal ones. -/
theorem exists_decode_iff_legal (c : CmdWord) :
    (∃ i, decode c = .ok i) ↔ (fieldsOf c).legal = true := by
  refine ⟨?_, exists_decodeFields_of_legal⟩
  rintro ⟨i, h⟩
  rw [(decodeInvertsEncode c i).mp h]
  exact encode_legal i

/-- R40, R93: at `P_DECODE` the sequencer answers a word that is no command with `IllegalCmd`. -/
theorem sequenceCommand_of_illegal {s : State} (hp : s.phase = .pDecode)
    (hd : ∀ i, decode s.cmd ≠ .ok i) : sequenceCommand s = .next (raiseIllegal s) := by
  unfold sequenceCommand
  rw [if_pos hp]
  cases h : decode s.cmd with
  | error e => rfl
  | ok i => exact absurd h (hd i)

/-- Settles O2: the four clauses are `CmdFields.legal` of the word's fields. -/
theorem legalWordsAreTheDecodedOnes : Obligations.LegalWordsAreTheDecodedOnes := by
  intro c
  constructor
  · rw [exists_decode_iff_legal, legal_iff, opOk_iff]
    rfl
  · rintro hd s hp rfl
    exact sequenceCommand_of_illegal hp hd

/-! ### The table's rows (R43) -/

/-- R43: the row of `ROTR` tests every field but `sh`. -/
theorem rotrRow_iff (c : CmdWord) :
    c &&& 0xFFFFC0FF = 0x00000001 ↔
      (fieldsOf c).op = 1 ∧ (fieldsOf c).wd = 0 ∧ (fieldsOf c).zero = 0 := by
  have mask : fieldsOf 0xFFFFC0FF = ⟨BitVec.allOnes 8, 0, BitVec.allOnes 2, BitVec.allOnes 16⟩ := by decide
  have word : fieldsOf 0x00000001 = ⟨1, 0, 0, 0⟩ := by decide
  rw [eq_iff_fieldsOf_eq, fieldsOf_and, mask, word]
  simp only [CmdFields.mk.injEq, BitVec.and_allOnes, BitVec.ofNat_eq_ofNat, BitVec.and_zero, true_and]

/-- Settles O3: the row of `ROTR` tests the fields other than `sh`, every other row the whole word. -/
theorem tableRowsSelectWords : Obligations.TableRowsSelectWords := by
  intro c i
  have whole {w : CmdWord} (h : ∀ sh, i ≠ .rotr sh) :
      c = w ↔ (c &&& 0xFFFFFFFF = w ∧ ∀ sh, i = .rotr sh → c.extractLsb' 8 6 = sh) := by
    rw [show (0xFFFFFFFF : CmdWord) = BitVec.allOnes 32 from rfl, BitVec.and_allOnes]
    exact (and_iff_left fun sh e => absurd e (h sh)).symm
  rw [decodeInvertsEncode c i]
  cases i with
  | rotr sh =>
    rw [eq_iff_fieldsOf_eq, encode, fieldsOf_packWord, rowOf, rotrRow_iff]
    simp only [fieldsOf, CmdFields.mk.injEq, Instr.rotr.injEq, forall_eq']
    tauto
  | _ => exact whole nofun

end Sys2Proof.Machine
end

section
/-! O5, O54: the step at `P_DECODE` (R40), and the script line `BUF` (R48). -/

namespace Sys2Proof.Machine

/-! ### A step runs the decoded command (R40) -/

/-- With nothing held that could complete and no turn left, the step is the sequencer's. -/
theorem step_of_no_turn {s : State} (hh : runState s = .busy ∨ s.held = []) (ha : s.agenda = []) :
    step s = sequenceCommand s := by
  rcases step_cases s with ⟨hn, a, r, hr, -⟩ |
    ⟨-, ⟨-, e⟩ | ⟨r, hr, -⟩ | ⟨r, hr, -⟩ | ⟨m, r, hr, -⟩ | ⟨r, hr, -⟩⟩
  · rcases hh with h | h
    · exact absurd h hn
    · rw [h] at hr; cases hr
  · exact e
  all_goals rw [ha] at hr; cases hr

/-- Settles O5: in each clause the step is the sequencer's turn. -/
theorem stepRunsDecodedCommand : Obligations.StepRunsDecodedCommand := by
  intro s i busy hp hd _
  refine ⟨fun ha => ?_, fun rest ha => ?_, fun rest ha => ?_⟩
  · rw [step_of_no_turn (.inl busy) ha, sequenceCommand_of_decoded hp hd]
  · rw [step_of_command (.inl busy) ha]
    exact sequenceCommand_of_decoded hp hd
  · rw [step_of_await (.inl busy) ha, awaitTurn, if_pos busy, sequenceCommand_of_decoded hp hd]

/-! ### The script line `BUF` (R48) -/

/-- A run that goes on is one step and the run from there. -/
theorem runSteps_succ_of_step {s t : State} (h : step s = .next t) (n : Nat) :
    runSteps (n + 1) s = runSteps n t := by
  rw [runSteps, h]

/-- R48: a wait is over at once when no command runs. -/
theorem step_of_await_over {s : State} {rest : List Turn} (hn : runState s ≠ .busy) (hh : s.held = [])
    (ha : s.agenda = .await :: rest) : step s = .next { s with agenda := rest } := by
  rw [step_of_await (.inr hh) ha]
  exact if_neg hn

/-- R110: when no command runs the host binds the buffer. -/
theorem step_of_bind {s : State} {bytes : List Byte} {rest : List Turn} (hn : runState s ≠ .busy)
    (hh : s.held = []) (ha : s.agenda = .host (.bind bytes) :: rest) :
    step s = .next { s with agenda := rest, buf := cellsFrom 0 bytes } := by
  rw [step_of_host (.inr hh) ha]
  exact if_neg hn

/-- R18: a write in `IDLE` or `DONE` stores at once. -/
theorem step_of_write {s : State} {r : HostReg} {v : Word} {rest : List Turn}
    (ready : runState s = .idle ∨ runState s = .done) (hh : s.held = [])
    (ha : s.agenda = .host (.access (.write r v)) :: rest) :
    step s = .next (storeReg { s with agenda := rest } r v) := by
  have hn : runState s ≠ .busy := by rcases ready with h | h <;> rw [h] <;> decide
  let s' : State := { s with agenda := rest }
  rw [step_of_host (.inr hh) ha]
  exact congrArg Host.Outcome.next
    ((accessTurn_of_not_busy (s := s') hn (.write r v)).trans
      (writeReg_of_idle_or_done (s := s') ready r v))

/-- R24: the buffer of `LEN` bytes bound from a list backs every offset below `LEN`. -/
theorem backed_of_byteAt {s : State} {bytes : List Byte} (len : s.len.toNat = bytes.length)
    (bound : ∀ k, k < bytes.length → byteAt s.buf k = bytes[k]?) : Backed s := by
  intro off h
  rw [len] at h
  exact ⟨bytes[off], (bound off h).trans (List.getElem?_eq_getElem h)⟩

/-- Settles O54: the three steps of the line, one after another. -/
theorem bufLineBindsAndSetsLength : Obligations.BufLineBindsAndSetsLength := by
  intro s bytes rest ready hheld hlen ha
  have hn : runState s ≠ .busy := by rcases ready with h | h <;> rw [h] <;> decide
  let n : Word := BitVec.ofNat 64 bytes.length
  let write : Turn := .host (.access (.write .len n))
  let waited : State := { s with agenda := .host (.bind bytes) :: write :: rest }
  let bound : State := { s with agenda := write :: rest, buf := cellsFrom 0 bytes }
  let t : State := { bound with agenda := rest, len := n }
  have run : runSteps 3 s = .next t := by
    calc runSteps 3 s
      _ = runSteps 2 waited := runSteps_succ_of_step (step_of_await_over hn hheld ha) 2
      _ = runSteps 1 bound := runSteps_succ_of_step (step_of_bind (s := waited) hn hheld rfl) 1
      _ = .next t := runSteps_succ_of_step (step_of_write (s := bound) ready hheld rfl) 0
  have len : t.len.toNat = bytes.length := (BitVec.toNat_ofNat _ _).trans (Nat.mod_eq_of_lt hlen)
  have byte (k : Nat) (hk : k < bytes.length) : byteAt t.buf k = bytes[k]? :=
    byteAt_cellsFrom bytes 0 k (hk.trans hlen) (Nat.zero_le k)
  exact ⟨t, run, len, rfl, byte, backed_of_byteAt len byte⟩

end Sys2Proof.Machine
end

section
/-! O9, O10: the rotation (R49) is the library's `BitVec.rotateRight`, and `ROTR` completes with it (R50). -/

namespace Sys2Proof.Machine

/-- R49: both cases of the rule are one circular rotation. -/
theorem rotate_eq_rotateRight (v : Word) (s : BitVec 6) : rotate v s = v.rotateRight s.toNat := by
  rw [BitVec.rotateRight_def, Nat.mod_eq_of_lt s.isLt, rotate]
  split
  · next h => subst h; simp
  · rfl

/-- R49: bit `i` of the result is bit `(i + s) mod 64` of `v`. -/
theorem getLsbD_rotate (v : Word) (s : BitVec 6) {i : Nat} (hi : i < 64) :
    (rotate v s).getLsbD i = v.getLsbD ((i + s.toNat) % 64) := by
  have small := s.isLt
  rw [rotate_eq_rotateRight, BitVec.getLsbD_rotateRight, Nat.mod_eq_of_lt small]
  by_cases h : i < 64 - s.toNat
  · simp [h, Nat.add_comm, Nat.mod_eq_of_lt (show i + s.toNat < 64 by omega)]
  · simp [h, hi, show (i + s.toNat) % 64 = i - (64 - s.toNat) by omega]

/-- R50: rotating on by `64 - s` completes the circle. -/
theorem rotate_rotate_neg (v : Word) (s : BitVec 6) : rotate (rotate v s) (0 - s) = v := by
  refine BitVec.eq_of_getLsbD_eq fun i hi => ?_
  rw [getLsbD_rotate _ _ hi, getLsbD_rotate _ _ (Nat.mod_lt _ (by omega))]
  congr 1
  bv_omega

/-- Settles O9: the two cases are the definition's, and the bits those of the circular rotation. -/
theorem rotateIsCircular : Obligations.RotateIsCircular :=
  fun v s => ⟨fun h => if_pos h, fun h => if_neg h, fun _ hi => getLsbD_rotate v s hi⟩

/-- Settles O10: the command ends with one result, the rotated operand. -/
theorem rotrRotatesOperand : Obligations.RotrRotatesOperand :=
  fun sh s => ⟨_, rfl, completeOne_oneResult s (rotate s.ops.o0 sh),
    fun _ hi => getLsbD_rotate s.ops.o0 sh hi, rotate_rotate_neg s.ops.o0 sh⟩

end Sys2Proof.Machine
end

section
/-! O11, O12: the bytes of a word, and `ByteSwap_n` (R51, R52), for every `n` up to 8. -/

namespace Sys2Proof.Machine

/-! ### The bytes of a word -/

/-- The low `n` bytes of a value, as fields of it. -/
theorem leBytes_eq_map (v : Word) (n : Nat) :
    leBytes v n = (List.range n).map fun j => v.extractLsb' (8 * j) 8 := by
  induction n generalizing v with
  | zero => rfl
  | succ n ih =>
    rw [leBytes, ih, List.range_succ_eq_map, List.map_cons, List.map_map, Nat.mul_zero,
      BitVec.setWidth_eq_extractLsb' (by omega)]
    refine congrArg _ (List.map_congr_left fun j _ => BitVec.eq_of_toNat_eq ?_)
    simp only [Function.comp_apply, BitVec.extractLsb'_toNat, BitVec.toNat_ushiftRight,
      ← Nat.shiftRight_add, Nat.succ_eq_add_one, Nat.mul_add, Nat.mul_one, Nat.add_comm 8]

/-- Byte `j` of a little-endian number is byte `j` of the list, and 0 beyond its end. -/
theorem leNat_byte (l : List Byte) (j : Nat) :
    leNat l / 2 ^ (8 * j) % 2 ^ 8 = (l[j]?.getD 0).toNat := by
  induction l generalizing j with
  | nil => simp [leNat]
  | cons b bs ih =>
    have hb := b.isLt
    cases j with
    | zero => simp only [leNat, List.getElem?_cons_zero, Option.getD_some]; omega
    | succ j =>
      have rest : leNat (b :: bs) / 2 ^ 8 = leNat bs := by rw [leNat]; omega
      rw [Nat.mul_add_one, Nat.add_comm, Nat.pow_add, ← Nat.div_div_eq_div_mul, rest, ih,
        List.getElem?_cons_succ]

/-- A list of bytes is a number of that many bytes. -/
theorem leNat_lt (l : List Byte) : leNat l < 2 ^ (8 * l.length) := by
  induction l with
  | nil => simp [leNat]
  | cons b bs ih =>
    have hb := b.isLt
    rw [leNat, List.length_cons, Nat.mul_add_one, Nat.pow_add]
    omega

/-- Two words with equal bytes are equal. -/
theorem eq_of_bytes_eq {v w : Word}
    (h : ∀ j, j < 8 → v.extractLsb' (8 * j) 8 = w.extractLsb' (8 * j) 8) : v = w := by
  refine BitVec.eq_of_getLsbD_eq fun i hi => ?_
  have bit := congrArg (fun x => x.getLsbD (i % 8)) (h (i / 8) (by omega))
  simpa only [BitVec.getLsbD_extractLsb', Nat.mod_lt i (show 8 > 0 by omega), decide_true, Bool.true_and,
    Nat.div_add_mod] using bit

/-- A byte above the low `n` bytes of a number of `n` bytes is 0. -/
theorem byte_eq_zero_of_lt {v : Word} {n j : Nat} (hv : v.toNat < 2 ^ (8 * n)) (hj : n ≤ j) :
    v.extractLsb' (8 * j) 8 = 0 := by
  refine BitVec.eq_of_toNat_eq ?_
  have small : v.toNat < 2 ^ (8 * j) := hv.trans_le (Nat.pow_le_pow_right (by omega) (by omega))
  rw [BitVec.extractLsb'_toNat, Nat.shiftRight_eq_div_pow, Nat.div_eq_of_lt small]
  rfl

/-! ### `ByteSwap_n` (R51) -/

section ByteSwap

variable {n : Nat} (h8 : n ≤ 8) (v : Word)
include h8

/-- R51: the number of the low bytes in reverse order, and its range. -/
theorem byteSwapN_toNat :
    (byteSwapN n v).toNat = leNat (leBytes v n).reverse ∧ (byteSwapN n v).toNat < 2 ^ (8 * n) := by
  have lt := leNat_lt (leBytes v n).reverse
  rw [List.length_reverse, leBytes_eq_map, List.length_map, List.length_range, ← leBytes_eq_map] at lt
  have value : (byteSwapN n v).toNat = leNat (leBytes v n).reverse := by
    rw [byteSwapN, BitVec.toNat_ofNat]
    exact Nat.mod_eq_of_lt (lt.trans_le (Nat.pow_le_pow_right (by omega) (by omega)))
  exact ⟨value, value ▸ lt⟩

/-- R51: byte `j` of the result is byte `n - 1 - j` of `v`. -/
theorem byteSwapN_byte {j : Nat} (hj : j < n) :
    (byteSwapN n v).extractLsb' (8 * j) 8 = v.extractLsb' (8 * (n - 1 - j)) 8 := by
  refine BitVec.eq_of_toNat_eq ?_
  rw [BitVec.extractLsb'_toNat, (byteSwapN_toNat h8 v).1, Nat.shiftRight_eq_div_pow, leNat_byte,
    leBytes_eq_map, List.getElem?_reverse (by simpa using hj), List.length_map, List.length_range,
    List.getElem?_map, List.getElem?_range (by omega)]
  rfl

/-- R51: the bytes above are 0. -/
theorem byteSwapN_byte_above {j : Nat} (hj : n ≤ j) : (byteSwapN n v).extractLsb' (8 * j) 8 = 0 :=
  byte_eq_zero_of_lt (byteSwapN_toNat h8 v).2 hj

/-- R51: reversing the bytes twice gives them back. -/
theorem byteSwapN_byteSwapN (hv : v.toNat < 2 ^ (8 * n)) : byteSwapN n (byteSwapN n v) = v := by
  refine eq_of_bytes_eq fun j _ => ?_
  by_cases hj : j < n
  · rw [byteSwapN_byte h8 _ hj, byteSwapN_byte h8 v (by omega), show n - 1 - (n - 1 - j) = j by omega]
  · rw [byteSwapN_byte_above h8 _ (by omega), byte_eq_zero_of_lt hv (by omega)]

end ByteSwap

/-- R51: one byte has no order. -/
theorem byteSwapN_one {v : Word} (hv : v.toNat < 2 ^ (8 * 1)) : byteSwapN 1 v = v := by
  refine eq_of_bytes_eq fun j _ => ?_
  by_cases hj : j < 1
  · rw [byteSwapN_byte (by omega) v hj, show 1 - 1 - j = j by omega]
  · rw [byteSwapN_byte_above (by omega) v (by omega), byte_eq_zero_of_lt hv (by omega)]

/-- R42: the byte counts of the four widths are at most 8. -/
theorem le_eight_of_mem_widths {n : Nat} (hn : n ∈ [1, 2, 4, 8]) : n ≤ 8 := by
  revert n
  decide

/-- Settles O11, byte by byte. -/
theorem byteSwapReversesAndUndoes : Obligations.ByteSwapReversesAndUndoes := by
  intro n hn v hv
  have h8 := le_eight_of_mem_widths hn
  refine ⟨(byteSwapN_toNat h8 v).2, fun j hj => byteSwapN_byte h8 v hj, ?_, byteSwapN_byteSwapN h8 v hv⟩
  rintro rfl
  exact byteSwapN_one hv

/-- R52: each row of `BSWAP` completes with `ByteSwap_n` of the operand. -/
theorem exec_bswap (s : State) {p : Instr × Nat}
    (hp : p ∈ [(Instr.bswapB, 1), (.bswapH, 2), (.bswapW, 4), (.bswapD, 8)]) :
    p.2 ≤ 8 ∧ exec p.1 s = .next (completeOne s (byteSwapN p.2 s.ops.o0)) := by
  simp only [List.mem_cons, List.not_mem_nil, or_false] at hp
  rcases hp with rfl | rfl | rfl | rfl <;> exact ⟨by decide, rfl⟩

/-- Settles O12: the command ends with one result, whose bytes are those of `ByteSwap_n`. -/
theorem bswapSwapsOperand : Obligations.BswapSwapsOperand := by
  intro s p hp
  obtain ⟨h8, run⟩ := exec_bswap s hp
  exact ⟨_, run, completeOne_oneResult s _, fun j hj => byteSwapN_byte h8 _ hj,
    fun j hj _ => byteSwapN_byte_above h8 _ hj⟩

end Sys2Proof.Machine
end

section
/-! O13, O14, O42: the entry into a fault (R95), the rows of `FETCH` (R54), and how a command ends (R67). -/

namespace Sys2Proof.Machine

/-- R95: everything `raiseFault` does that the spec says. -/
theorem raiseFault_faultEntry (s : State) (c : Cause) (info : Word) :
    FaultEntry s (raiseFault s c info) c info where
  keeps := (raiseFault_frame s c info).inputs
  finfo := rfl
  state := raiseFault_stateBits s c info
  cause := by
    rw [raiseFault_status, setStatusState_field _ _ (by omega) (by omega)]
    refine (statusCause_setStatusCause _ _).trans ?_
    cases c <;> rfl
  statusRest := by
    rw [raiseFault_status]
    constructor <;>
      rw [setStatusState_field _ _ (by omega) (by omega), setStatusCause_field _ _ (by omega) (by omega)]
  phase := rfl

/-- Settles O42, by the end the command is at. -/
theorem commandsEndDoneOrFault : Obligations.CommandsEndDoneOrFault := by
  intro i s t h
  cases exec_commandEnd h with
  | one v => exact ⟨rfl, .inl (completeOne_oneResult s v).rest.ends⟩
  | pair p => exact ⟨rfl, .inl (completePair_twoResults s p).rest.ends⟩
  | digest d => exact ⟨completeDigest_phase s d, .inl (completeDigest_digestResult s d).ends⟩
  | bufRange info => exact ⟨rfl, .inr ⟨info, raiseFault_faultEntry s _ info⟩⟩

/-- R54: each row of `FETCH` is one read of its width at `OP[0]`. -/
theorem exec_fetch (s : State) {p : Instr × Nat}
    (hp : p ∈ [(Instr.fetchB, 1), (.fetchH, 2), (.fetchW, 4), (.fetchD, 8)]) :
    p.2 ≤ 8 ∧ exec p.1 s = settle s (memRead s.buf s.len s.ops.o0.toNat p.2) (completeOne s) := by
  simp only [List.mem_cons, List.not_mem_nil, or_false] at hp
  rcases hp with rfl | rfl | rfl | rfl <;> exact ⟨by decide, rfl⟩

/-- Settles O13: the read finds its bytes, and the command ends with their number. -/
theorem fetchReadsLittleEndian : Obligations.FetchReadsLittleEndian := by
  intro s p hp inside backed
  obtain ⟨h8, run⟩ := exec_fetch s hp
  rw [memRead_of_backed inside backed] at run
  exact ⟨_, run, completeOne_oneResult s _, wordAt_toNat s.buf _ h8⟩

/-- Settles O14: the read stops before it takes a byte, and the command enters the fault. -/
theorem fetchOutOfRangeFaults : Obligations.FetchOutOfRangeFaults := by
  intro s p hp outside
  obtain ⟨-, run⟩ := exec_fetch s hp
  rw [memRead_of_not_inRange outside, settle, readStopped, BitVec.ofNat_toNat, BitVec.setWidth_eq] at run
  exact ⟨_, run, raiseFault_faultEntry s _ _⟩

end Sys2Proof.Machine
end

section
/-! O15 to O19: `ShiftMix` (R55, R56) and the compressors (R57 to R62), which are `ShiftMix` and products. -/

namespace Sys2Proof.Machine

/-! ### `ShiftMix` -/

/-- R55, as a number. -/
@[simp] theorem shiftMix_toNat (v : Word) : (shiftMix v).toNat = v.toNat ^^^ (v.toNat >>> 47) := rfl

/-- R56: two shifts by 47 leave nothing of 64 bits. -/
theorem shiftMix_shiftMix (v : Word) : shiftMix (shiftMix v) = v := by
  have twice : v >>> 47 >>> 47 = 0#64 := by
    rw [← BitVec.shiftRight_add, BitVec.ushiftRight_eq_zero (by omega)]
  simp only [shiftMix, BitVec.ushiftRight_xor_distrib, twice, BitVec.xor_zero, BitVec.xor_assoc,
    BitVec.xor_self]

/-- R56: below 2^47 there is nothing to mix. -/
theorem shiftMix_of_lt {v : Word} (h : v.toNat < 2 ^ 47) : shiftMix v = v := by
  refine BitVec.eq_of_toNat_eq ?_
  rw [shiftMix_toNat, Nat.shiftRight_eq_div_pow, Nat.div_eq_of_lt h, Nat.xor_zero]

@[simp] theorem shiftMix_zero : shiftMix 0#64 = 0#64 := rfl

/-- R56: only 0 mixes to 0. -/
theorem shiftMix_eq_zero {v : Word} : shiftMix v = 0 ↔ v = 0 := by
  constructor
  · intro h
    rw [← shiftMix_shiftMix v, h]
    rfl
  · rintro rfl
    exact shiftMix_zero

/-- Settles O16, from the two laws of the shift by 47. -/
theorem shiftMixUndoesItself : Obligations.ShiftMixUndoesItself :=
  fun v => ⟨shiftMix_shiftMix v, shiftMix_of_lt⟩

/-- R55: a field of the result is the field mixed with the one 47 bits above it. -/
theorem shiftMix_field (v : Word) (lo n : Nat) :
    (shiftMix v).extractLsb' lo n = v.extractLsb' lo n ^^^ v.extractLsb' (47 + lo) n := by
  have shifted : (v >>> 47).extractLsb' lo n = v.extractLsb' (47 + lo) n := by
    refine BitVec.eq_of_toNat_eq ?_
    simp only [BitVec.extractLsb'_toNat, BitVec.toNat_ushiftRight, Nat.shiftRight_add]
  rw [shiftMix, BitVec.extractLsb'_xor, shifted]

/-- R55: 47 bits above bit 17 there is nothing, so the top bits pass. -/
theorem shiftMix_top (v : Word) : (shiftMix v).extractLsb' 17 47 = v.extractLsb' 17 47 := by
  have zeros : v.extractLsb' (47 + 17) 47 = 0#47 := by
    refine BitVec.eq_of_toNat_eq ?_
    rw [BitVec.extractLsb'_toNat, Nat.shiftRight_eq_div_pow, Nat.div_eq_of_lt v.isLt]
    rfl
  rw [shiftMix_field, zeros, BitVec.xor_zero]

/-- Settles O15: the command ends with one result, `ShiftMix` of the operand field by field. -/
theorem shmixMixesTopBits : Obligations.ShmixMixesTopBits :=
  fun s => ⟨_, rfl, completeOne_oneResult s (shiftMix s.ops.o0), shiftMix_field s.ops.o0 0 17,
    shiftMix_top s.ops.o0⟩

/-! ### The compressors -/

/-- R61: the two rounds of the compressor, each a product and a `ShiftMix`. -/
theorem hashLen16Mul_eq (u v mul : Word) :
    hashLen16Mul u v mul = shiftMix ((v ^^^ shiftMix ((u ^^^ v) * mul)) * mul) * mul := rfl

/-- R57, R59, R61: the compressor of a pair is the one with the multiplier `KMUL`. -/
theorem hash128to64_eq (u v : Word) : hash128to64 ⟨u, v⟩ = hashLen16Mul u v kMul := rfl

/-- R61: the compressor on natural numbers modulo 2^64. -/
theorem hashLen16Mul_eq_ofNat (u v mul : Word) :
    hashLen16Mul u v mul =
      (let k := mul.toNat
       let a := ((u.toNat ^^^ v.toNat) * k) % 2 ^ 64
       let a' := a ^^^ (a >>> 47)
       let b := ((v.toNat ^^^ a') * k) % 2 ^ 64
       let b' := b ^^^ (b >>> 47)
       BitVec.ofNat 64 (b' * k)) := by
  refine BitVec.eq_of_toNat_eq ?_
  simp only [hashLen16Mul_eq, BitVec.toNat_mul, shiftMix_toNat, BitVec.toNat_xor, BitVec.toNat_ofNat]

/-- Settles O18: the command ends with the compressor by `OP[2]`. -/
theorem multiplierCompressorCommand : Obligations.MultiplierCompressorCommand := by
  intro s
  have run : exec .hl16m s = .next (completeOne s (hashLen16Mul s.ops.o0 s.ops.o1 s.ops.o2)) := rfl
  rw [hashLen16Mul_eq_ofNat] at run
  exact ⟨_, run, completeOne_oneResult s _⟩

/-- Settles O17: both commands end with the compressor by `KMUL`. -/
theorem compressorCommands : Obligations.CompressorCommands := by
  intro s
  have same : exec .hl16 s = exec .h128 s := rfl
  have run : exec .h128 s = .next (completeOne s (hashLen16Mul s.ops.o0 s.ops.o1 kMul)) := rfl
  rw [hashLen16Mul_eq_ofNat] at run
  have result := completeOne_oneResult s
  exact ⟨⟨_, run, result _⟩, ⟨_, same.trans run, result _⟩⟩

/-- R9: `KMUL` is odd, so it has an inverse modulo 2^64, and only 0 times `KMUL` is 0. -/
theorem mul_kMul_eq_zero {v : Word} : v * kMul = 0 ↔ v = 0 := by
  have inverse : kMul * 0xdc56e6f5090b32d9 = 1 := by decide
  constructor
  · intro h
    calc v = v * (kMul * 0xdc56e6f5090b32d9) := by rw [inverse, mul_one]
      _ = 0 := by rw [← mul_assoc, h, zero_mul]
  · rintro rfl
    rfl

/-- R57: equal halves cancel in the first round. -/
theorem hash128to64_self (u : Word) : hash128to64 ⟨u, u⟩ = shiftMix (u * kMul) * kMul := by
  rw [hash128to64_eq, hashLen16Mul_eq, BitVec.xor_self, BitVec.zero_mul, shiftMix_zero, BitVec.xor_zero]

/-- Settles O19: the laws of the two rounds, one by one. -/
theorem compressorLaws : Obligations.CompressorLaws := by
  intro u v
  refine ⟨hash128to64_eq u v, rfl, hash128to64_self u, ?_, BitVec.mul_zero, ?_⟩
  · rw [hash128to64_self, mul_kMul_eq_zero, shiftMix_eq_zero, mul_kMul_eq_zero]
  · simp only [hashLen16Mul_eq, BitVec.ofNat_eq_ofNat, BitVec.mul_one]

end Sys2Proof.Machine
end

section
/-! O20, O21, O22: the weak hash in closed form (R63), and `WEAK32B` in and out of range (R65, R66). -/

namespace Sys2Proof.Machine

/-- R63 in closed form. -/
theorem weakHash_eq (w x y z a b : Word) :
    weakHash w x y z a b =
      ⟨a + w + x + y + z, rotate (b + a + w + z) 21 + rotate (a + w + x + y) 44 + a + w⟩ := by
  simp only [weakHash, BitVec.add_assoc]

/-- Settles O20: the command ends with both results of the scalar form. -/
theorem weak32ClosedForm : Obligations.Weak32ClosedForm := by
  intro s
  have run : exec .weak32 s = .next (completePair s
      (weakHash s.ops.o0 s.ops.o1 s.ops.o2 s.ops.o3 s.ops.o4 s.ops.o5)) := rfl
  rw [weakHash_eq] at run
  exact ⟨_, run, completePair_twoResults s _⟩

/-- R66: the command reads with the buffer form at `OP[0]`. -/
theorem exec_weak32b (s : State) :
    exec .weak32b s =
      settle s (weakHashBuf s.buf s.len s.ops.o0.toNat s.ops.o4 s.ops.o5) (completePair s) := rfl

/-- Settles O21: the four reads find their words, and the command ends with the scalar form on them. -/
theorem weak32bReadsFourWords : Obligations.Weak32bReadsFourWords := by
  intro s off w x y z a b inside backed
  have run := exec_weak32b s
  rw [weakHashBuf_of_backedAt inside backed, weakHash_eq] at run
  exact ⟨_, run, completePair_twoResults s _⟩

/-- R65, R66: the buffer form stops at the lowest of its four offsets that is out of range, when the reads
before it find their bytes. -/
theorem weakHashBuf_outOfRange {m : Memory} {len : Word} {off k : Nat} (hk : k < 4)
    (inside : ∀ j, j < k → off + 8 * j + 8 ≤ len.toNat) (outside : len.toNat < off + 8 * k + 8)
    (backed : BackedAt m off (8 * k)) (a b : Word) :
    weakHashBuf m len off a b = .error (.outOfRange (off + 8 * k)) := by
  have found (j : Nat) (hj : j < k) :
      fetch64 m len (off + 8 * j) = .ok (wordAt m (off + 8 * j) 8) := by
    refine memRead_of_backed (inside j hj) fun i hi => ?_
    rw [Nat.add_assoc]
    exact backed (8 * j + i) (by omega)
  have stop : fetch64 m len (off + 8 * k) = .error (.outOfRange (off + 8 * k)) :=
    memRead_of_not_inRange outside
  -- the four offsets, each as `off + 8 * j`
  have reads : weakHashBuf m len off a b = (do
      let w ← fetch64 m len (off + 8 * 0)
      let x ← fetch64 m len (off + 8 * 1)
      let y ← fetch64 m len (off + 8 * 2)
      let z ← fetch64 m len (off + 8 * 3)
      .ok (weakHash w x y z a b)) := rfl
  rw [reads]
  match k with
  | 0 => simp only [stop, reading_bind_error]
  | 1 => simp only [found 0 (by omega), stop, reading_bind_ok, reading_bind_error]
  | 2 => simp only [found 0 (by omega), found 1 (by omega), stop, reading_bind_ok, reading_bind_error]
  | 3 =>
    simp only [found 0 (by omega), found 1 (by omega), found 2 (by omega), stop, reading_bind_ok,
      reading_bind_error]

/-- Settles O22: the offset is `OP[0]`, or at most `LEN` where a read before it was in range. -/
theorem weak32bFaultsAtLowestRead : Obligations.Weak32bFaultsAtLowestRead := by
  intro s k off hk inside outside backed
  constructor
  · cases k with
    | zero => exact s.ops.o0.isLt
    | succ k =>
      have before := inside k (by omega)
      have fits := s.len.isLt
      omega
  · have run := exec_weak32b s
    rw [weakHashBuf_outOfRange hk inside outside backed] at run
    exact ⟨_, run, raiseFault_faultEntry s _ _⟩

end Sys2Proof.Machine
end

section
/-! O23 to O28: `HASH` of at most 64 bytes (R68 to R77). The dispatcher selects one handler, each read of
the handler finds its little-endian word, and the command ends with the handler's value. -/

namespace Sys2Proof.Machine

/-- R68: `HASH` ends with the digest when there is one. -/
theorem exec_hash_of_digest {s : State} {d : Word} (h : digestOf truncRule s.buf s.len = .ok d) :
    ∃ t, exec .hash s = .next t ∧ DigestResult s t d := by
  have run : exec .hash s = settle s (digestOf truncRule s.buf s.len) (completeDigest s) := rfl
  rw [h] at run
  exact ⟨_, run, completeDigest_digestResult s d⟩

/-! ### The dispatcher (R69, R70) -/

section Dispatcher

variable (rule : TruncRule) (m : Memory) {len : Word}

/-- R69: only buffers longer than 64 bytes take the pipeline. -/
theorem digestOf_of_short (h : len.toNat ≤ 64) : digestOf rule m len = shortDigest m len :=
  if_neg (by omega)

theorem digestOf_of_empty (h : len.toNat = 0) : digestOf rule m len = .ok k2 := by
  rw [digestOf_of_short rule m (by omega)]
  exact if_pos h

theorem digestOf_eq_len1to3 (low : 1 ≤ len.toNat) (high : len.toNat ≤ 3) :
    digestOf rule m len = len1to3 m len := by
  rw [digestOf_of_short rule m (by omega), shortDigest, if_neg (by omega), if_pos high]

theorem digestOf_eq_len4to7 (low : 4 ≤ len.toNat) (high : len.toNat ≤ 7) :
    digestOf rule m len = len4to7 m len := by
  rw [digestOf_of_short rule m (by omega), shortDigest, if_neg (by omega), if_neg (by omega),
    if_pos high]

theorem digestOf_eq_len8to16 (low : 8 ≤ len.toNat) (high : len.toNat ≤ 16) :
    digestOf rule m len = len8to16 m len := by
  rw [digestOf_of_short rule m (by omega), shortDigest, if_neg (by omega), if_neg (by omega),
    if_neg (by omega), if_pos high]

theorem digestOf_eq_len17to32 (low : 17 ≤ len.toNat) (high : len.toNat ≤ 32) :
    digestOf rule m len = len17to32 m len := by
  rw [digestOf_of_short rule m (by omega), shortDigest, if_neg (by omega), if_neg (by omega),
    if_neg (by omega), if_neg (by omega), if_pos high]

theorem digestOf_eq_len33to64 (low : 33 ≤ len.toNat) (high : len.toNat ≤ 64) :
    digestOf rule m len = len33to64 m len := by
  rw [digestOf_of_short rule m high, shortDigest, if_neg (by omega), if_neg (by omega),
    if_neg (by omega), if_neg (by omega), if_neg (by omega)]

end Dispatcher

/-! ### The 32-bit sums of the handler of 1 to 3 bytes (R6, R71) -/

/-- R26: one byte is below 256. -/
theorem wordAt_byte_lt (m : Memory) (off : Nat) : (wordAt m off 1).toNat < 256 := by
  rw [wordAt_toNat m off (by omega)]
  exact bytesValue_lt m off 1

/-- R71: `y` and `z` add a byte times at most 256 to a number below 256, so 32 bits hold them. -/
theorem add_shiftLeft_fits_32 {u v : Word} {k : Nat} (hk : k ≤ 8) (hu : u.toNat < 256)
    (hv : v.toNat < 256) :
    ((u + v <<< k).setWidth 32).setWidth 64 = u + v <<< k := by
  have scaled : v.toNat * 2 ^ k ≤ 255 * 2 ^ 8 :=
    Nat.mul_le_mul (by omega) (Nat.pow_le_pow_right (by omega) hk)
  refine BitVec.setWidth_setWidth_eq_self ?_
  rw [BitVec.lt_def, BitVec.toNat_twoPow, BitVec.toNat_add, BitVec.toNat_shiftLeft, Nat.shiftLeft_eq]
  omega

/-! ### What each handler gives on a backed buffer (R71 to R76) -/

section Handlers

variable {s : State} (backed : Backed s)
include backed

/-- R71: the shifts of `y` and `z` are products with 256 and 4, and their 32 bits lose nothing. -/
theorem len1to3_of_backed (low : 1 ≤ s.len.toNat) (high : s.len.toNat ≤ 3) :
    len1to3 s.buf s.len = .ok (shiftMix
      (((wordAt s.buf 0 1 + wordAt s.buf (s.len.toNat / 2) 1 * 256) * k2) ^^^
        ((s.len + wordAt s.buf (s.len.toNat - 1) 1 * 4) * k0)) * k2) := by
  have byte := wordAt_byte_lt s.buf
  have half : s.len.toNat >>> 1 = s.len.toNat / 2 := Nat.shiftRight_eq_div_pow _ 1
  simp (disch := omega) only [len1to3, half, fetch8_of_backed backed, reading_bind_ok]
  rw [add_shiftLeft_fits_32 (by omega) (byte _) (byte _),
    add_shiftLeft_fits_32 (by omega) (by omega) (byte _),
    BitVec.shiftLeft_eq_mul_twoPow, BitVec.shiftLeft_eq_mul_twoPow]
  rfl

/-- R72: the shift of the first word is a product with 8. -/
theorem len4to7_of_backed (low : 4 ≤ s.len.toNat) :
    len4to7 s.buf s.len = .ok (hashLen16Mul (s.len + wordAt s.buf 0 4 * 8)
      (wordAt s.buf (s.len.toNat - 4) 4) (lenMul s.len)) := by
  simp (disch := omega) only [len4to7, fetch32_of_backed backed, reading_bind_ok]
  rw [BitVec.shiftLeft_eq_mul_twoPow]
  rfl

theorem len8to16_of_backed (low : 8 ≤ s.len.toNat) :
    len8to16 s.buf s.len =
      (let mul := lenMul s.len
       let a := wordAt s.buf 0 8 + k2
       let b := wordAt s.buf (s.len.toNat - 8) 8
       .ok (hashLen16Mul (rotate b 37 * mul + a) ((rotate a 25 + b) * mul) mul)) := by
  simp (disch := omega) only [len8to16, fetch64_of_backed backed, reading_bind_ok]

theorem len17to32_of_backed (low : 17 ≤ s.len.toNat) :
    len17to32 s.buf s.len =
      (let mul := lenMul s.len
       let a := wordAt s.buf 0 8 * k1
       let b := wordAt s.buf 8 8
       let c := wordAt s.buf (s.len.toNat - 8) 8 * mul
       let d := wordAt s.buf (s.len.toNat - 16) 8 * k2
       .ok (hashLen16Mul (rotate (a + b) 43 + rotate c 30 + d) (a + rotate (b + k2) 18 + c) mul)) := by
  simp (disch := omega) only [len17to32, fetch64_of_backed backed, reading_bind_ok]

theorem len33to64_of_backed (low : 33 ≤ s.len.toNat) :
    len33to64 s.buf s.len = .ok (mix33to64 (lenMul s.len) (wordAt s.buf 0 8) (wordAt s.buf 8 8)
      (wordAt s.buf (s.len.toNat - 24) 8) (wordAt s.buf (s.len.toNat - 32) 8) (wordAt s.buf 16 8)
      (wordAt s.buf 24 8) (wordAt s.buf (s.len.toNat - 8) 8) (wordAt s.buf (s.len.toNat - 16) 8)) := by
  simp (disch := omega) only [len33to64, fetch64_of_backed backed, reading_bind_ok]

end Handlers

/-! ### `HASH` bucket by bucket -/

/-- Settles O23: the dispatcher answers `K2` without a read. -/
theorem hashOfEmptyBuffer : Obligations.HashOfEmptyBuffer := fun s empty =>
  exec_hash_of_digest (digestOf_of_empty truncRule s.buf (congrArg BitVec.toNat empty))

/-- Settles O24: the bytes are small, so the 32-bit sums lose nothing. -/
theorem hashOfOneToThreeBytes : Obligations.HashOfOneToThreeBytes := fun s low high backed =>
  exec_hash_of_digest <|
    (digestOf_eq_len1to3 truncRule s.buf low high).trans (len1to3_of_backed backed low high)

/-- Settles O25: the bucket's handler on its first and its last four bytes; its shift by 3 is a product
with 8. -/
theorem hashOfFourToSevenBytes : Obligations.HashOfFourToSevenBytes := fun s low high backed =>
  exec_hash_of_digest <|
    (digestOf_eq_len4to7 truncRule s.buf low high).trans (len4to7_of_backed backed low)

/-- Settles O26: the bucket's handler on its first and its last word. -/
theorem hashOfEightToSixteenBytes : Obligations.HashOfEightToSixteenBytes := fun s low high backed =>
  exec_hash_of_digest <|
    (digestOf_eq_len8to16 truncRule s.buf low high).trans (len8to16_of_backed backed low)

/-- Settles O27: the bucket's handler on its first two and its last two words. -/
theorem hashOfSeventeenToThirtyTwoBytes : Obligations.HashOfSeventeenToThirtyTwoBytes :=
  fun s low high backed => exec_hash_of_digest <|
    (digestOf_eq_len17to32 truncRule s.buf low high).trans (len17to32_of_backed backed low)

/-- Settles O28: the statement's lines are those of the mix on the eight words read. -/
theorem hashOfThirtyThreeToSixtyFourBytes : Obligations.HashOfThirtyThreeToSixtyFourBytes :=
  fun s low high backed => exec_hash_of_digest <|
    (digestOf_eq_len33to64 truncRule s.buf low high).trans (len33to64_of_backed backed low)

end Sys2Proof.Machine
end

section
/-! O29, O30, O31 and O35: the pipeline on a backed buffer (R78 to R85). Each block step gives a value,
so the hidden registers before step `k` are the `k`-th iterate of one function on them, and the loop is
that function iterated `REM / 64` times. -/

namespace Sys2Proof.Machine

/-! ### Truncation (R81) -/

/-- Settles O35: both rules round down to a multiple of 64, `LEN - 1` and `LEN`, and these have the same
number of whole blocks unless `LEN` ends a block. -/
theorem truncationRules : Obligations.TruncationRules := by
  refine ⟨rfl, fun rule m len h => primePipeline_pos_rem, fun len long => ?_⟩
  have ref : (truncateLen .ref len).toNat = 64 * ((len.toNat - 1) / 64) :=
    truncateLen_toNat (by omega)
  have literal : (truncateLen .literal len).toNat = 64 * (len.toNat / 64) := toNat_and_not63 len
  refine ⟨ref, literal, by omega, ?_⟩
  rw [← BitVec.toNat_inj, ref, literal]
  omega

/-! ### Priming and one block step (R79, R80, R82) -/

/-- R82: the hidden registers after one block step, from the words of the buffer. -/
def nextBlock (m : Memory) (h : Hidden) : Hidden :=
  let p := h.pos.toNat
  let w := fun off => wordAt m off 8
  let x := (rotate (h.x + h.y + h.v.first + w (p + 8)) 37 * k1) ^^^ h.wp.second
  let y := rotate (h.y + h.v.second + w (p + 48)) 42 * k1 + h.v.first + w (p + 40)
  let z := rotate (h.z + h.wp.first) 33 * k1
  { x := z, y := y, z := x
    v := weakHash (w p) (w (p + 8)) (w (p + 16)) (w (p + 24)) (h.v.second * k1) (x + h.wp.first)
    wp := weakHash (w (p + 32)) (w (p + 40)) (w (p + 48)) (w (p + 56)) (z + h.wp.second)
      (y + w (p + 16))
    pos := h.pos + 64, rem := h.rem - 64 }

section Backed

variable {s : State} (backed : Backed s)
include backed

/-- On a backed buffer the buffer form in range is the scalar form on its four words (R65). -/
theorem weakHashBuf_of_backed {off : Nat} (hr : off + 32 ≤ s.len.toNat) (a b : Word) :
    weakHashBuf s.buf s.len off a b = .ok (weakHash (wordAt s.buf off 8) (wordAt s.buf (off + 8) 8)
      (wordAt s.buf (off + 16) 8) (wordAt s.buf (off + 24) 8) a b) :=
  weakHashBuf_of_backedAt hr (backedAt_of_backed backed hr) a b

/-- R79, R80: priming reads the last 64 bytes and the first word. -/
theorem primePipeline_of_backed (rule : TruncRule) (long : 64 < s.len.toNat) :
    primePipeline rule s.buf s.len =
      (let n := s.len.toNat
       let w := fun off => wordAt s.buf off 8
       let x := w (n - 40)
       let y := w (n - 16) + w (n - 56)
       let z := hashLen16 (w (n - 48) + s.len) (w (n - 24))
       .ok { x := x * k1 + w 0, y := y, z := z
             v := weakHash (w (n - 64)) (w (n - 56)) (w (n - 48)) (w (n - 40)) s.len z
             wp := weakHash (w (n - 32)) (w (n - 24)) (w (n - 16)) (w (n - 8)) (y + k1) x
             pos := 0, rem := truncateLen rule s.len }) := by
  simp (disch := omega) only [primePipeline, fetch64_of_backed backed, weakHashBuf_of_backed backed,
    reading_bind_ok, ← tsub_tsub_assoc, Nat.reduceSub]

/-- R82: a block step within `LEN` gives its value. -/
theorem blockStep_of_backed {h : Hidden} (hr : h.pos.toNat + 64 ≤ s.len.toNat) :
    blockStep s.buf s.len h = .ok (nextBlock s.buf h) := by
  simp (disch := omega) only [blockStep, fetch64_of_backed backed, weakHashBuf_of_backed backed,
    reading_bind_ok, Nat.add_assoc, Nat.reduceAdd, nextBlock]

end Backed

/-- Settles O29, from what priming gives on a backed buffer. -/
theorem primingFromTheLastBytes : Obligations.PrimingFromTheLastBytes := fun _ long backed =>
  ⟨_, primePipeline_of_backed backed truncRule long, rfl, rfl, rfl, rfl, rfl⟩

/-- Settles O30, from what a block step gives on a backed buffer. -/
theorem blockStepUpdates : Obligations.BlockStepUpdates := fun _ _ inside backed =>
  blockStep_of_backed backed inside

/-! ### The block loop (R83) -/

/-- R81, R82: `POS` and `REM` before step `k` of a loop that begins at 0 with `n` blocks to take. -/
theorem nextBlock_iterate_pos_rem (m : Memory) {h : Hidden} {n k : Nat} (pos : h.pos.toNat = 0)
    (rem : h.rem.toNat = 64 * n) (hk : k ≤ n) :
    ((nextBlock m)^[k] h).pos.toNat = 64 * k ∧ ((nextBlock m)^[k] h).rem.toNat = 64 * (n - k) := by
  induction k with
  | zero => exact ⟨pos, rem⟩
  | succ k ih =>
    obtain ⟨posBefore, remBefore⟩ := ih (by omega)
    rw [Function.iterate_succ_apply']
    generalize (nextBlock m)^[k] h = g at posBefore remBefore ⊢
    have posStep : (nextBlock m g).pos = g.pos + 64 := rfl
    have remStep : (nextBlock m g).rem = g.rem - 64 := rfl
    have fits := h.rem.isLt
    rw [posStep, remStep]
    constructor <;> bv_omega

/-- R83: a block step of a loop that has `n + 1` blocks to take leaves `n`. -/
theorem blockStep_rem_blocks {m : Memory} {len : Word} {h h' : Hidden} {n : Nat}
    (e : blockStep m len h = .ok h') (rem : h.rem.toNat = 64 * (n + 1)) : h'.rem.toNat = 64 * n := by
  rw [(blockStep_pos_rem e).2]
  bv_omega

/-- R83: the test after a step ends the loop exactly when no block is left. -/
theorem rem_eq_zero_iff {h : Hidden} {n : Nat} (rem : h.rem.toNat = 64 * n) : h.rem = 0 ↔ n = 0 := by
  rw [← BitVec.toNat_inj, rem, show (0 : Word).toNat = 0 from rfl]
  omega

/-- R83: a loop with `n + 1` blocks to take is one block step and a loop with `n`: the test after the
step ends the loop just when none is left. -/
theorem blockLoop_succ (m : Memory) (len : Word) {h : Hidden} {n : Nat}
    (rem : h.rem.toNat = 64 * (n + 1)) :
    blockLoop m len (n + 1) h = blockStep m len h >>= blockLoop m len n := by
  rw [blockLoop]
  cases step : blockStep m len h with
  | error e => rfl
  | ok g =>
    simp only [reading_bind_ok, rem_eq_zero_iff (blockStep_rem_blocks step rem)]
    split
    · next last => rw [last]; rfl
    · rfl

/-- On a backed buffer the loop takes all its blocks, which lie within `LEN`. -/
theorem blockLoop_of_backed {s : State} (backed : Backed s) (n : Nat) {h : Hidden}
    (inside : h.pos.toNat + 64 * n ≤ s.len.toNat) (rem : h.rem.toNat = 64 * n) :
    blockLoop s.buf s.len n h = .ok ((nextBlock s.buf)^[n] h) := by
  induction n generalizing h with
  | zero => rfl
  | succ n ih =>
    have step := blockStep_of_backed backed (h := h) (by omega)
    have pos : (nextBlock s.buf h).pos = h.pos + 64 := rfl
    rw [blockLoop_succ _ _ rem, step, reading_bind_ok, Function.iterate_succ_apply]
    exact ih (by rw [pos]; bv_omega) (blockStep_rem_blocks step rem)

/-- R69, R78: the digest of more than 64 bytes, from what priming and the loop give. -/
theorem digestOf_of_long {rule : TruncRule} {m : Memory} {len : Word} {h g : Hidden}
    (long : 64 < len.toNat) (prime : primePipeline rule m len = .ok h)
    (loop : blockLoop m len (h.rem.toNat / 64) h = .ok g) :
    digestOf rule m len = .ok (finalMix g) := by
  rw [digestOf, if_pos long, lenOver64, prime, reading_bind_ok, loop, reading_bind_ok]

/-- R81: priming leaves `POS = 0` and all `NB` blocks to take. -/
theorem primed_blocks {m : Memory} {len : Word} {h : Hidden} (long : 64 < len.toNat)
    (e : primePipeline truncRule m len = .ok h) :
    h.pos.toNat = 0 ∧ h.rem.toNat = 64 * ((len.toNat - 1) / 64) := by
  obtain ⟨pos, rem⟩ := primePipeline_pos_rem e
  exact ⟨by rw [pos]; rfl, by rw [rem, truncateLen_toNat (by omega)]⟩

/-- Settles O31: the chain is the iterates of the block step from the primed registers. -/
theorem hashStreamsWholeBlocks : Obligations.HashStreamsWholeBlocks := by
  intro s n nb long backed
  obtain ⟨h, prime, -⟩ := primingFromTheLastBytes s long backed
  obtain ⟨pos, rem⟩ := primed_blocks long prime
  have fits : 64 * nb < n := by omega
  have blocks {k : Nat} (hk : k ≤ nb) := nextBlock_iterate_pos_rem s.buf pos rem hk
  obtain ⟨lastPos, lastRem⟩ := blocks le_rfl
  have loop : blockLoop s.buf s.len (h.rem.toNat / 64) h = .ok ((nextBlock s.buf)^[nb] h) := by
    rw [rem, Nat.mul_div_cancel_left _ (by omega)]
    exact blockLoop_of_backed backed nb (by omega) rem
  obtain ⟨t, run, result⟩ := exec_hash_of_digest (digestOf_of_long long prime loop)
  refine ⟨fun k => (nextBlock s.buf)^[k] h, t, prime, fun k hk => ⟨?_, blocks hk.le⟩,
    (rem_eq_zero_iff lastRem).mpr (Nat.sub_self nb), lastPos, run, result⟩
  have inside : ((nextBlock s.buf)^[k] h).pos.toNat + 64 ≤ s.len.toNat := by
    rw [(blocks hk.le).1]
    omega
  exact (blockStep_of_backed backed inside).trans
    (congrArg Except.ok (Function.iterate_succ_apply' (nextBlock s.buf) k h).symm)

end Sys2Proof.Machine
end

section
/-! O59: a command taken phase by phase (R86). Between the phases of a digest command only `PHASE` and the
hidden registers differ from the state it began in, and neither a stop nor the end of the command depends
on them; so each phase is one part of the digest's reading, and the parts in order are the whole. -/

namespace Sys2Proof.Machine

/-! ### One phase of a run -/

/-- A phase that goes on: the phases left follow it. -/
theorem runPhases_of_next {s t : State} {n : Nat} (h : sequencePhase s = .next t) :
    runPhases (n + 1) s = runPhases n t := by
  rw [runPhases, h]

/-- A phase with which the command ends or the machine stops: the phases left change nothing. -/
theorem runPhases_of_end {s : State} {n : Nat} {o : Host.Outcome State Fault Refusal}
    (h : sequencePhase s = o) (idle : ∀ t, o = .next t → t.phase = .pIdle) :
    runPhases (n + 1) s = o := by
  rw [runPhases, h]
  cases o with
  | next t => exact runPhases_of_idle n (idle t rfl)
  | fault r => rfl
  | refused r => rfl

/-- R95: a read that yields no value ends the command or stops the machine. -/
theorem readStopped_idle {s t : State} {e : ReadStop} (h : readStopped s e = .next t) :
    t.phase = .pIdle := by
  cases e with
  | outOfRange off => cases h; rfl
  | unbacked off => cases h

/-- A phase that reads is the first part of a reading when the phases left make the rest of it and a stop
is the same in both states. -/
theorem runPhases_of_reading {α β : Type} {s u : State} {n : Nat} {r : Reading α} {done : α → State}
    {k : α → Reading β} {finish : β → State} (stops : ∀ e, readStopped u e = readStopped s e)
    (phase : sequencePhase u = settle u r done)
    (rest : ∀ v, r = .ok v → runPhases n (done v) = settle s (k v) finish) :
    runPhases (n + 1) u = settle s (r >>= k) finish := by
  cases r with
  | ok v => exact (runPhases_of_next phase).trans (rest v rfl)
  | error e =>
    have stop : sequencePhase u = readStopped s e := phase.trans (stops e)
    exact runPhases_of_end stop fun t => readStopped_idle

/-! ### The state inside a command -/

/-- R17, R86: the state a command began in, with the sequencer and the pipeline further on. -/
def insideCommand (s : State) (p : Phase) (h : Hidden) : State := { s with phase := p, hidden := h }

/-- R40: inside a command the sequencer's next phase is that of the decoded instruction. -/
theorem sequencePhase_insideCommand {s : State} {i : Instr} (hd : decode s.cmd = .ok i) (p : Phase)
    (h : Hidden) (busy : p ≠ .pIdle) :
    sequencePhase (insideCommand s p h) = phaseOf i (insideCommand s p h) := by
  have hd' : decode (insideCommand s p h).cmd = .ok i := hd
  have busy' : (insideCommand s p h).phase ≠ .pIdle := busy
  rw [sequencePhase, if_neg busy', hd']

/-- R95: a fault writes `PHASE` and the hidden registers, whatever they hold. -/
theorem readStopped_insideCommand (s : State) (p : Phase) (h : Hidden) (e : ReadStop) :
    readStopped (insideCommand s p h) e = readStopped s e := by
  cases e <;> rfl

/-- R40, R68: the end of a digest command writes `PHASE`, and forgets the hidden registers if the pipeline
has changed them. -/
theorem completeDigest_insideCommand {s : State} {h : Hidden} (hh : s.len.toNat ≤ 64 → h = s.hidden)
    (p : Phase) (d : Word) : completeDigest (insideCommand s p h) d = completeDigest s d := by
  have len : (insideCommand s p h).len = s.len := rfl
  by_cases long : 64 < s.len.toNat
  · rw [completeDigest_of_long long, completeDigest_of_long (len ▸ long)]
    rfl
  · have short := Nat.not_lt.mp long
    rw [completeDigest_of_short short, completeDigest_of_short (len ▸ short), hh short]
    rfl

/-- R89: so does `P_SEED`, whose seeds are operand registers. -/
theorem seedPhase_insideCommand {s : State} {h : Hidden} (hh : s.len.toNat ≤ 64 → h = s.hidden)
    (i : Instr) (p : Phase) (d : Word) :
    seedPhase i (insideCommand s p h) d = seedPhase i s d := by
  have ops : (insideCommand s p h).ops = s.ops := rfl
  unfold seedPhase
  rw [ops]
  split <;> exact completeDigest_insideCommand hh p _

/-- R17: a primitive command does not look at `PHASE`. -/
theorem exec_insideCommand {i : Instr} (hi : isDigest i = false) (s : State) (p : Phase) :
    exec i (insideCommand s p s.hidden) = exec i s := by
  cases i with
  | hash | hashs | hashss => cases hi
  | _ => rfl

/-- R83: after a step the loop is at its end exactly when no block is left. -/
theorem blockDone_eq_insideCommand (s : State) {h : Hidden} {n : Nat} (rem : h.rem.toNat = 64 * n) :
    blockDone s h = insideCommand s (if n = 0 then .pFinal else .pBlock) h := by
  simp only [blockDone, insideCommand, rem_eq_zero_iff rem]

/-! ### The phases of a digest command -/

/-- R68, R87, R88: a digest command ends with the seed mix, if it has one, of the digest. -/
theorem exec_digest {i : Instr} (hi : isDigest i = true) (s : State) :
    exec i s = settle s (digestOf truncRule s.buf s.len) (seedPhase i s) := by
  cases i with
  | hash | hashs | hashss => rfl
  | _ => cases hi

section Digest

variable {s : State} {i : Instr} (hd : decode s.cmd = .ok i)
include hd

/-- R86, R89: once the digest is found one phase more is enough: `P_SEED`, or none. -/
theorem runPhases_withDigest {h : Hidden} (hh : s.len.toNat ≤ 64 → h = s.hidden) (p : Phase) (d : Word)
    (n : Nat) : runPhases (n + 1) (withDigest i (insideCommand s p h) d) = .next (seedPhase i s d) := by
  have idle : (seedPhase i s d).phase = .pIdle := by
    obtain ⟨d', e⟩ := seedPhase_eq i s d
    rw [e, completeDigest_phase]
  cases seeds : seedsOf i s.ops with
  | none =>
    have e : withDigest i (insideCommand s p h) d = seedPhase i (insideCommand s p h) d := by
      unfold withDigest seedPhase
      rw [show (insideCommand s p h).ops = s.ops from rfl, seeds]
    rw [e, seedPhase_insideCommand hh]
    exact runPhases_of_idle _ idle
  | some seed =>
    have e : withDigest i (insideCommand s p h) d = insideCommand s (.pSeed d) h := by
      unfold withDigest
      rw [show (insideCommand s p h).ops = s.ops from rfl, seeds]
      rfl
    have phase : sequencePhase (insideCommand s (.pSeed d) h) = .next (seedPhase i s d) :=
      (sequencePhase_insideCommand hd (.pSeed d) h nofun).trans
        (congrArg Host.Outcome.next (seedPhase_insideCommand hh i _ d))
    rw [e]
    exact runPhases_of_end phase (by rintro _ ⟨⟩; exact idle)

/-- R86: at most 64 bytes: `P_SHORT` finds the digest. -/
theorem runPhases_pShort (hi : isDigest i = true) (n : Nat) :
    runPhases (n + 2) (insideCommand s .pShort s.hidden) =
      settle s (shortDigest s.buf s.len) (seedPhase i s) := by
  have phase : sequencePhase (insideCommand s .pShort s.hidden) =
      settle (insideCommand s .pShort s.hidden) (shortDigest s.buf s.len)
        (withDigest i (insideCommand s .pShort s.hidden)) :=
    (sequencePhase_insideCommand hd .pShort _ nofun).trans (if_pos hi)
  rw [← bind_pure (shortDigest s.buf s.len)]
  exact runPhases_of_reading (readStopped_insideCommand s _ _) phase
    fun d _ => runPhases_withDigest hd (fun _ => rfl) _ d n

/-- R85, R86: `P_FINAL` finds the digest of more than 64 bytes. -/
theorem runPhases_pFinal (long : 64 < s.len.toNat) (h : Hidden) (n : Nat) :
    runPhases (n + 2) (insideCommand s .pFinal h) = .next (seedPhase i s (finalMix h)) := by
  have phase : sequencePhase (insideCommand s .pFinal h) =
      .next (withDigest i (insideCommand s .pFinal h) (finalMix h)) :=
    sequencePhase_insideCommand hd .pFinal h nofun
  rw [runPhases_of_next phase]
  exact runPhases_withDigest hd (fun short => absurd long (Nat.not_lt.mpr short)) _ _ n

/-- R83, R86: after a test of the loop the blocks left are as many phases, and the final mix follows. -/
theorem runPhases_blockDone (long : 64 < s.len.toNat) (n : Nat) {h : Hidden}
    (rem : h.rem.toNat = 64 * n) :
    runPhases (n + 2) (blockDone s h) =
      settle s (blockLoop s.buf s.len n h >>= fun g => .ok (finalMix g)) (seedPhase i s) := by
  induction n generalizing h with
  | zero =>
    rw [blockDone_eq_insideCommand s rem]
    exact runPhases_pFinal hd long h 0
  | succ n ih =>
    rw [blockDone_eq_insideCommand s rem, blockLoop_succ _ _ rem, bind_assoc]
    have phase : sequencePhase (insideCommand s .pBlock h) =
        settle (insideCommand s .pBlock h) (blockStep s.buf s.len h) (blockDone s) :=
      sequencePhase_insideCommand hd .pBlock h nofun
    exact runPhases_of_reading (readStopped_insideCommand s _ _) phase
      fun g step => ih (blockStep_rem_blocks step rem)

/-- R78, R86: more than 64 bytes: priming and the loop of `NB` blocks, which is not empty. -/
theorem runPhases_pPrime (long : 64 < s.len.toNat) :
    runPhases ((s.len.toNat - 1) / 64 + 3) (insideCommand s .pPrime s.hidden) =
      settle s (lenOver64 truncRule s.buf s.len) (seedPhase i s) := by
  have phase : sequencePhase (insideCommand s .pPrime s.hidden) =
      settle (insideCommand s .pPrime s.hidden) (primePipeline truncRule s.buf s.len)
        (primed s) :=
    sequencePhase_insideCommand hd .pPrime _ nofun
  refine runPhases_of_reading (readStopped_insideCommand s _ _) phase fun h prime => ?_
  have rem := (primed_blocks long prime).2
  have first : primed s h = blockDone s h := by
    rw [blockDone_eq_insideCommand s rem, if_neg (by omega)]
    rfl
  rw [first, rem, Nat.mul_div_cancel_left _ (by omega)]
  exact runPhases_blockDone hd long _ rem

end Digest

/-- R86: `P_SHORT` is the whole of a primitive command. -/
theorem runPhases_primitive {s : State} {i : Instr} (hd : decode s.cmd = .ok i)
    (hi : isDigest i = false) (n : Nat) :
    runPhases (n + 1) (insideCommand s .pShort s.hidden) = exec i s := by
  have phase : sequencePhase (insideCommand s .pShort s.hidden) = exec i s := by
    rw [sequencePhase_insideCommand hd .pShort _ nofun, ← exec_insideCommand hi s .pShort]
    exact if_neg (by rw [hi]; nofun)
  exact runPhases_of_end phase fun t h => (commandsEndDoneOrFault i s t h).1

/-- Settles O59, by the phase that follows `P_DECODE`: a primitive command, a short digest, or the
pipeline. -/
theorem phasesAgreeWithWholeCommand : Obligations.PhasesAgreeWithWholeCommand := by
  intro s i atDecode hd
  have self : insideCommand s .pDecode s.hidden = s := by rw [← atDecode]; rfl
  have decoded : sequencePhase (insideCommand s .pDecode s.hidden) =
      .next (insideCommand s (firstPhase i s.len) s.hidden) :=
    sequencePhase_insideCommand hd .pDecode s.hidden nofun
  rw [self] at decoded
  rw [runPhases_of_next decoded]
  cases hi : isDigest i with
  | false =>
    have first : firstPhase i s.len = .pShort := by simp [firstPhase, hi]
    rw [first]
    exact runPhases_primitive hd hi _
  | true =>
    rw [exec_digest hi]
    by_cases long : 64 < s.len.toNat
    · have first : firstPhase i s.len = .pPrime := by simp [firstPhase, hi, long]
      rw [first, digestOf, if_pos long]
      exact runPhases_pPrime hd long
    · have first : firstPhase i s.len = .pShort := by simp [firstPhase, long]
      rw [first, digestOf_of_short _ _ (Nat.not_lt.mp long)]
      exact runPhases_pShort hd hi _

end Sys2Proof.Machine
end

section
/-! O32 and O33: the seeded commands (R87 to R90). The digest of a backed buffer is a value, and every
digest command ends with its own seed mix of that value; an operand register counts only where it is a
seed. -/

namespace Sys2Proof.Machine

/-! ### The digest of a backed buffer (R87, R88) -/

/-- R34, R69: on a backed buffer the digest is a value, since its reading stays in range and stops only
at an unbacked byte. -/
theorem digestOf_ok_of_backed {s : State} (backed : Backed s) :
    ∃ d, digestOf truncRule s.buf s.len = .ok d := by
  cases reading : digestOf truncRule s.buf s.len with
  | ok d => exact ⟨d, rfl⟩
  | error stop =>
    cases stop with
    | outOfRange off => exact absurd reading (digestOf_staysInRange s.buf s.len off)
    | unbacked off =>
      obtain ⟨below, unbound⟩ := digestOf_stopsUnbacked s.buf s.len truncRule off reading
      obtain ⟨b, bound⟩ := backed off below
      rw [unbound] at bound
      cases bound

/-- R68, R87, R88: once the digest is a value, a digest command ends with its seed mix. -/
theorem exec_digest_of_ok {i : Instr} (hi : isDigest i = true) {s : State} {d : Word}
    (h : digestOf truncRule s.buf s.len = .ok d) : exec i s = .next (seedPhase i s d) := by
  rw [exec_digest hi, h]
  rfl

/-- Settles O32: the three commands end with the seed mix, or none, of one digest. -/
theorem seededDigests : Obligations.SeededDigests := by
  intro s backed
  obtain ⟨d, digest⟩ := digestOf_ok_of_backed backed
  exact ⟨d, _, _, _,
    exec_digest_of_ok rfl digest, completeDigest_digestResult s d,
    exec_digest_of_ok rfl digest, completeDigest_digestResult s (seedMix d k2 s.ops.o1),
    exec_digest_of_ok rfl digest, completeDigest_digestResult s (seedMix d s.ops.o0 s.ops.o1)⟩

/-! ### Other operand registers, the same outcome (R90) -/

/-- The end of a digest command carries the operand registers along and does not look at them. -/
theorem completeDigest_with_ops (s : State) (o : OpFile) (d : Word) :
    completeDigest { s with ops := o } d = { completeDigest s d with ops := o } := by
  unfold completeDigest
  split <;> rfl

/-- A command that reads the buffer stops the machine just when its reading stops at an unbacked byte. -/
theorem settle_eq_fault_iff {α : Type} {s : State} {r : Reading α} {done : α → State} {f : Fault} :
    settle s r done = .fault f ↔ ∃ off, r = .error (.unbacked off) ∧ f = .unbackedByte off := by
  constructor
  · intro h
    rcases settle_cases s r done with ⟨v, -, e⟩ | ⟨off, -, e⟩ | ⟨off, stop, e⟩
    · rw [h] at e; cases e
    · rw [h] at e; cases e
    · rw [h] at e; cases e; exact ⟨off, stop, rfl⟩
  · rintro ⟨off, rfl, rfl⟩
    rfl

/-- With other operand registers a reading that goes on goes on alike, when what is made of the value
read does not depend on them: a value and the entry into `BufRange` carry them along. -/
theorem settle_with_ops {α : Type} {s t : State} {r : Reading α} {done done' : α → State} {o : OpFile}
    (hdone : ∀ v, done' v = { done v with ops := o }) (h : settle s r done = .next t) :
    settle { s with ops := o } r done' = .next { t with ops := o } := by
  rcases settle_eq_next h with ⟨v, rfl, rfl⟩ | ⟨off, rfl, rfl⟩
  · exact congrArg Host.Outcome.next (hdone v)
  · rfl

/-- R87 to R89: with `OP[0] = K2` the command `HASHSS` ends as `HASHS` does, but for that `OP[0]`. -/
theorem seedPhase_hashss_k2 (s : State) (d : Word) :
    seedPhase .hashss { s with ops := { s.ops with o0 := k2 } } d =
      { seedPhase .hashs s d with ops := { s.ops with o0 := k2 } } :=
  completeDigest_with_ops s _ (seedMix d k2 s.ops.o1)

/-- Settles O33: both commands make the same of the same reading of the buffer. -/
theorem seedCompositionLaw : Obligations.SeedCompositionLaw := by
  intro s
  rw [exec_digest rfl, exec_digest rfl]
  exact ⟨fun t => settle_with_ops (seedPhase_hashss_k2 s),
    fun f h => settle_eq_fault_iff.mpr (settle_eq_fault_iff.mp h)⟩

end Sys2Proof.Machine
end

section
/-! O7, O8, O48, O49, O56: the entry into a fault (R93, R95), the sticky `FAULT` (R96, R97), and the
instances of a system (R102). -/

namespace Sys2Proof.Machine

/-! ### The entry into a fault (R93, R95) -/

/-- Settles O8: the entry as `raiseFault_faultEntry` lists it, for both causes. -/
theorem faultEntryWrites : Obligations.FaultEntryWrites := raiseFault_faultEntry

/-- Settles O7: the step is the sequencer's turn at `P_DECODE`, which raises `IllegalCmd`. -/
theorem illegalWordFaultsAtDecode : Obligations.IllegalWordFaultsAtDecode := by
  intro s busy hp hd ha
  have turn : step s = .next (raiseIllegal s) := by
    rw [step_of_no_turn (.inl busy) ha, sequenceCommand_of_illegal hp hd]
  exact ⟨raiseIllegal s, turn, raiseFault_faultEntry s .illegalCmd _⟩

/-! ### The sticky `FAULT` (R96, R97) -/

/-- R96: in `FAULT` an access of the host completes at once. -/
theorem step_of_access_in_fault {s : State} {a : Access} {rest : List Turn} (fault : runState s = .fault)
    (hh : s.held = []) (ha : s.agenda = .host (.access a) :: rest) :
    step s = .next (completeAccess { s with agenda := rest } a) := by
  have notBusy : runState s ≠ .busy := by rw [fault]; decide
  rw [step_of_host (.inr hh) ha]
  exact congrArg Host.Outcome.next (accessTurn_of_not_busy (s := { s with agenda := rest }) notBusy a)

/-- Settles O48: the access completes, a read with a reply and a write with no effect. -/
theorem writesIgnoredInFault : Obligations.WritesIgnoredInFault := by
  intro s r v rest fault hh
  constructor
  · intro ha
    rw [step_of_access_in_fault fault hh ha]
    exact congrArg Host.Outcome.next (writeReg_of_fault (s := { s with agenda := rest }) fault r v)
  · exact step_of_access_in_fault fault hh

/-- R96: an access that completes in `FAULT` changes no register. -/
theorem completeAccess_registers_of_fault {s : State} (fault : runState s = .fault) (a : Access) :
    (completeAccess s a).status = s.status ∧ ∀ r, readReg (completeAccess s a) r = readReg s r := by
  cases a with
  | read r => exact ⟨rfl, fun _ => rfl⟩
  | write r v =>
    rw [show completeAccess s (.write r v) = s from writeReg_of_fault fault r v]
    exact ⟨rfl, fun _ => rfl⟩

/-- R86, R95: in `FAULT` the sequencer is idle. -/
theorem RunInv.phase_of_fault {s : State} (inv : RunInv s) (fault : runState s = .fault) :
    s.phase = .pIdle := by
  by_contra hp
  have busy := inv.running.mpr hp
  rw [fault] at busy
  cases busy

/-- Settles O49, by who moves: an access changes no register, the sequencer is idle, and of the host's
other moves only reset touches a register. -/
theorem faultIsSticky : Obligations.FaultIsSticky := by
  intro s t inv fault h
  rcases step_movers h with ⟨a, rest, -, -, rfl⟩ | ⟨m, rest, ha, hm⟩ | ⟨rest, -, rfl⟩ | ⟨-, turns, hs⟩
  · exact .inl (completeAccess_registers_of_fault (s := { s with held := rest }) fault a)
  · rcases hostTurn_movers hm with ⟨a, -, rfl⟩ | ⟨held, rfl⟩ | ⟨-, buf, -, rfl⟩ | ⟨rfl, rfl⟩
    · exact .inl (completeAccess_registers_of_fault (s := { s with agenda := rest }) fault a)
    · exact .inl ⟨rfl, fun _ => rfl⟩
    · exact .inl ⟨rfl, fun _ => rfl⟩
    · exact .inr ⟨runState_resetEvent _, rest, ha⟩
  · exact .inl ⟨rfl, fun _ => rfl⟩
  · rcases sequencer_cases hs with ⟨-, rfl⟩ | ⟨running, -⟩
    · exact .inl ⟨rfl, fun _ => rfl⟩
    · exact absurd (inv.phase_of_fault fault) running

/-! ### Several instances (R102) -/

/-- Everything a step of a system that goes on can be: there is no such instance, or it alone steps. -/
theorem systemStep_eq_next {k : Nat} {sys sys' : System} (h : systemStep k sys = .next sys') :
    sys' = sys ∨ ∃ s t, sys[k]? = some s ∧ step s = .next t ∧ sys' = sys.set k t := by
  unfold systemStep at h
  split at h
  · cases h; exact .inl rfl
  · next s hs =>
    split at h
    · next t ht => cases h; exact .inr ⟨s, t, hs, ht, rfl⟩
    · cases h
    · cases h

/-- Settles O56: the step replaces at most instance `k`. -/
theorem instancesAreIsolated : Obligations.InstancesAreIsolated := by
  intro k sys sys' h
  rcases systemStep_eq_next h with rfl | ⟨s, t, -, -, rfl⟩
  · exact ⟨rfl, fun _ _ => rfl⟩
  · exact ⟨List.length_set, fun j hj => List.getElem?_set_ne hj.symm⟩

end Sys2Proof.Machine
end

section
/-! O52, O53: the reset event in any state (R105), and an access held across it (R106). -/

namespace Sys2Proof.Machine

/-- R105: with nothing held that could complete, a step that begins with the host's reset is the reset
event. -/
theorem step_of_reset {s : State} {rest : List Turn} (hh : runState s = .busy ∨ s.held = [])
    (ha : s.agenda = .host .reset :: rest) :
    step s = .next (resetEvent { s with agenda := rest }) :=
  step_of_host hh ha

/-- Settles O52: the step is the reset event, which lists what it writes. -/
theorem resetFromAnyState : Obligations.ResetFromAnyState := by
  intro s rest ha hh
  exact ⟨_, step_of_reset hh ha, rfl, rfl, rfl, rfl, rfl, fun _ => rfl, rfl, rfl, rfl⟩

/-- R13, R19: a held write to `CMD` starts its command when it completes in `IDLE` or `DONE`. -/
theorem step_of_held_cmd {s : State} {v : Word} {hs : List Access} (hf : runState s ≠ .fault)
    (hb : runState s ≠ .busy) (hheld : s.held = .write .cmd v :: hs) :
    step s = .next (startCommand { s with held := hs } (v.setWidth 32)) := by
  rw [step_of_held hb hheld]
  exact congrArg Host.Outcome.next (writeReg_of_ready (s := { s with held := hs }) hf hb .cmd v)

/-- Settles O53: reset leaves `IDLE` with the access still held, so the access completes as any held one
does (`heldAccessCompletes`); a write to `CMD` starts its command in the state of reset. -/
theorem heldAccessAcrossReset : Obligations.HeldAccessAcrossReset := by
  intro s a hs rest busy hheld ha
  let u : State := resetEvent { s with agenda := rest }
  have idle : runState u = .idle := runState_resetEvent _
  have notBusy : runState u ≠ .busy := by rw [idle]; decide
  have notFault : runState u ≠ .fault := by rw [idle]; decide
  obtain ⟨t, complete, held, -, read, -, writeLen, writeOp, -⟩ :=
    heldAccessCompletes u a hs notBusy hheld
  refine ⟨u, t, step_of_reset (.inl busy) ha, complete, held, rfl, rfl, ?_, ?_, ?_, ?_⟩
  · intro r e
    rw [read r e]
    exact ⟨rfl, idle⟩
  · intro v e
    rw [writeLen v e notFault]
    exact ⟨rfl, rfl, idle⟩
  · intro i v e
    rw [writeOp i v e notFault]
    exact ⟨by simp [readOp_writeOp], rfl, idle⟩
  · intro v e
    rw [e] at hheld
    rw [step_of_held_cmd notFault notBusy hheld] at complete
    cases complete
    exact ⟨rfl, rfl, runState_startCommand _ _, rfl⟩

end Sys2Proof.Machine
end

section
/-! O60: a running command ends (R112), and a script line that writes `CMD` waits for it and for its own
(R48). On a backed buffer every turn of the sequencer goes on and brings the end of the command nearer, by a
measure on `PHASE` and `REM`; so the command ends in a bounded number of turns, whether the sequencer moves
phase by phase or under a host's wait. -/

namespace Sys2Proof.Machine

/-! ### On a backed buffer the sequencer goes on (R24) -/

/-- The host's duty towards the buffer is kept by whatever keeps the inputs of a command. -/
theorem Backed.of_keepsInputs {s t : State} (backed : Backed s) (keeps : KeepsInputs s t) : Backed t := by
  intro off below
  rw [keeps.len] at below
  rw [keeps.buffer]
  exact backed off below

section Backed

variable {s : State} (backed : Backed s)
include backed

/-- A reading of a backed buffer gives a value or ends the command; it does not stop the machine. -/
theorem settle_next_of_backed {α : Type} {r : Reading α} (stops : StopsUnbacked s.buf s.len r)
    (done : α → State) : ∃ t, settle s r done = .next t := by
  rcases settle_cases s r done with ⟨v, -, e⟩ | ⟨off, -, e⟩ | ⟨off, stop, -⟩
  · exact ⟨_, e⟩
  · exact ⟨_, e⟩
  · obtain ⟨below, unbound⟩ := stops off stop
    obtain ⟨b, bound⟩ := backed off below
    rw [unbound] at bound
    cases bound

theorem exec_next_of_backed (i : Instr) : ∃ t, exec i s = .next t := by
  cases i with
  | rotr _ | bswapB | bswapH | bswapW | bswapD | shmix | h128 | hl16 | hl16m | weak32 =>
    exact ⟨_, rfl⟩
  | fetchB | fetchH | fetchW | fetchD =>
    exact settle_next_of_backed backed (memRead_stopsUnbacked _ _ _ _) _
  | weak32b => exact settle_next_of_backed backed (weakHashBuf_stopsUnbacked _ _ _ _ _) _
  | hash | hashs | hashss => exact settle_next_of_backed backed (digestOf_stopsUnbacked _ _ _) _

theorem phaseOf_next_of_backed (i : Instr) : ∃ t, phaseOf i s = .next t := by
  unfold phaseOf
  cases s.phase with
  | pIdle | pDecode | pFinal | pSeed d => exact ⟨_, rfl⟩
  | pShort =>
    dsimp only
    split
    · exact settle_next_of_backed backed (shortDigest_stopsUnbacked _ _) _
    · exact exec_next_of_backed backed i
  | pPrime => exact settle_next_of_backed backed (primePipeline_stopsUnbacked _ _ _) _
  | pBlock => exact settle_next_of_backed backed (blockStep_stopsUnbacked _ _ _) _

theorem sequencePhase_next_of_backed : ∃ t, sequencePhase s = .next t := by
  unfold sequencePhase
  split
  · exact ⟨_, rfl⟩
  · split
    · exact ⟨_, rfl⟩
    · exact phaseOf_next_of_backed backed _

theorem sequenceCommand_next_of_backed : ∃ t, sequenceCommand s = .next t := by
  unfold sequenceCommand
  split
  · split
    · exact ⟨_, rfl⟩
    · exact exec_next_of_backed backed _
  · exact sequencePhase_next_of_backed backed

end Backed

/-! ### The phases left -/

/-- R83, R86: a bound on the phases a command still takes from where the sequencer is: `NB` blocks in all,
and those that `REM` counts inside the loop. -/
def phasesLeft (s : State) : Nat :=
  match s.phase with
  | .pIdle => 0
  | .pDecode => (s.len.toNat - 1) / 64 + 4
  | .pShort => 2
  | .pPrime => (s.len.toNat - 1) / 64 + 3
  | .pBlock => s.hidden.rem.toNat / 64 + 2
  | .pFinal => 2
  | .pSeed _ => 1

theorem phasesLeft_of_idle {s : State} (h : s.phase = .pIdle) : phasesLeft s = 0 := by
  rw [phasesLeft, h]

/-- Inside a command a phase is left. -/
theorem phasesLeft_pos {s : State} (busy : s.phase ≠ .pIdle) : 0 < phasesLeft s := by
  unfold phasesLeft
  cases phase : s.phase with
  | pIdle => exact absurd phase busy
  | _ => exact Nat.succ_pos _

/-- R81, R83: from anywhere in a command at most `NB + 4` phases are left. -/
theorem phasesLeft_le {s : State} (inv : RunInv s) : phasesLeft s ≤ (s.len.toNat - 1) / 64 + 4 := by
  have at_phase := inv.phase
  unfold PhaseInv at at_phase
  unfold phasesLeft
  cases phase : s.phase with
  | pBlock =>
    simp only [phase] at at_phase ⊢
    obtain ⟨i, -, -, loop⟩ := at_phase
    have total := loop.total
    rw [truncateLen_toNat (Nat.zero_lt_of_lt loop.long)] at total
    omega
  | _ => dsimp only; omega

/-- R86: after the digest is found at most the seed mix is left. -/
theorem phasesLeft_withDigest (i : Instr) (s : State) (d : Word) : phasesLeft (withDigest i s d) ≤ 1 := by
  rcases withDigest_cases i s d with ⟨-, e⟩ | e
  · rw [e]; exact le_rfl
  · rw [e, phasesLeft_of_idle (completeDigest_phase s d)]; exact Nat.zero_le 1

/-- A phase that reads leaves fewer phases when what it makes of the value does: `BufRange` leaves none. -/
theorem settle_phasesLeft {α : Type} {s t : State} {r : Reading α} {done : α → State} {n : Nat}
    (hd : ∀ v, r = .ok v → phasesLeft (done v) ≤ n) (h : settle s r done = .next t) :
    phasesLeft t ≤ n := by
  obtain ⟨v, e, rfl⟩ | ⟨off, -, rfl⟩ := settle_eq_next h
  · exact hd v e
  · exact Nat.zero_le n

/-- Every end of a command leaves no phase. -/
theorem exec_phasesLeft {i : Instr} {s t : State} (h : exec i s = .next t) : phasesLeft t = 0 :=
  phasesLeft_of_idle (commandsEndDoneOrFault i s t h).1

theorem phasesLeft_decoded (i : Instr) (s : State) :
    phasesLeft { s with phase := firstPhase i s.len } ≤ (s.len.toNat - 1) / 64 + 3 := by
  unfold firstPhase
  split
  · exact le_rfl
  · show 2 ≤ _
    omega

theorem phasesLeft_primed {s : State} {h : Hidden} (long : 64 < s.len.toNat)
    (e : primePipeline truncRule s.buf s.len = .ok h) :
    phasesLeft (primed s h) ≤ (s.len.toNat - 1) / 64 + 2 := by
  have rem := (primed_blocks long e).2
  show h.rem.toNat / 64 + 2 ≤ _
  omega

theorem phasesLeft_blockDone {s : State} {h : Hidden} (loop : LoopInv s)
    (e : blockStep s.buf s.len s.hidden = .ok h) :
    phasesLeft (blockDone s h) ≤ s.hidden.rem.toNat / 64 + 1 := by
  have remains := loop.remains
  have blocks : s.hidden.rem.toNat = 64 * (s.hidden.rem.toNat / 64 - 1 + 1) := by
    have := loop.remBlocks
    omega
  have rem := blockStep_rem_blocks e blocks
  by_cases last : h.rem = 0
  · have phase : (blockDone s h).phase = .pFinal := if_pos last
    rw [phasesLeft, phase]
    dsimp only
    omega
  · have phase : (blockDone s h).phase = .pBlock := if_neg last
    rw [phasesLeft, phase, blockDone_hidden]
    dsimp only
    omega

/-- Each phase leaves fewer. -/
theorem phaseOf_phasesLeft {i : Instr} {s t : State} (inv : RunInv s) (busy : s.phase ≠ .pIdle)
    (h : phaseOf i s = .next t) : phasesLeft t < phasesLeft s := by
  have at_phase := inv.phase
  unfold PhaseInv at at_phase
  unfold phaseOf at h
  rw [phasesLeft.eq_def s]
  cases phase : s.phase <;> simp only [phase] at h at_phase ⊢
  case pIdle => exact absurd phase busy
  case pDecode =>
    cases h
    exact Nat.lt_succ_of_le (phasesLeft_decoded i s)
  case pShort =>
    split at h
    · exact Nat.lt_succ_of_le (settle_phasesLeft (fun d _ => phasesLeft_withDigest i s d) h)
    · rw [exec_phasesLeft h]; exact Nat.two_pos
  case pPrime =>
    obtain ⟨j, -, -, long⟩ := at_phase
    exact Nat.lt_succ_of_le (settle_phasesLeft (fun _ e => phasesLeft_primed long e) h)
  case pBlock =>
    obtain ⟨j, -, -, loop⟩ := at_phase
    exact Nat.lt_succ_of_le (settle_phasesLeft (fun _ e => phasesLeft_blockDone loop e) h)
  case pFinal =>
    cases h
    exact Nat.lt_succ_of_le (phasesLeft_withDigest i s _)
  case pSeed d =>
    cases h
    obtain ⟨d', e⟩ := seedPhase_eq i s d
    rw [e, phasesLeft_of_idle (completeDigest_phase s d')]
    exact Nat.one_pos

/-- Each turn of the sequencer inside a command leaves fewer phases. -/
theorem sequencer_phasesLeft {s t : State} (inv : RunInv s) (busy : s.phase ≠ .pIdle)
    (h : sequenceCommand s = .next t ∨ sequencePhase s = .next t) : phasesLeft t < phasesLeft s := by
  rcases sequencer_cases h with ⟨idle, -⟩ | ⟨-, ⟨-, rfl⟩ | ⟨i, -, e | e⟩⟩
  · exact absurd idle busy
  · exact phasesLeft_pos busy
  · rw [exec_phasesLeft e]; exact phasesLeft_pos busy
  · exact phaseOf_phasesLeft inv busy e

/-! ### A running command ends (R112) -/

/-- `n` turns one after another, each taken while a command runs. -/
inductive BusyTurns (turn : State → Host.Outcome State Fault Refusal) : Nat → State → State → Prop where
  | none (s : State) : BusyTurns turn 0 s s
  | next {n : Nat} {s u t : State} : runState s = .busy → turn s = .next u → BusyTurns turn n u t →
      BusyTurns turn (n + 1) s t

/-- The command that runs in `s` has ended in `t`. -/
structure RunEnded (s t : State) : Prop where
  inv : RunInv t
  keeps : KeepsInputs s t
  ended : runState t = .done ∨ runState t = .fault

theorem RunEnded.notBusy {s t : State} (h : RunEnded s t) : runState t ≠ .busy := by
  rcases h.ended with e | e <;> rw [e] <;> decide

theorem KeepsInputs.trans {s u t : State} (first : KeepsInputs s u) (second : KeepsInputs u t) :
    KeepsInputs s t where
  ops := second.ops.trans first.ops
  len := second.len.trans first.len
  cmd := second.cmd.trans first.cmd
  buffer off := (second.buffer off).trans (first.buffer off)
  held := second.held.trans first.held
  agenda := second.agenda.trans first.agenda
  replies := second.replies.trans first.replies

/-- R112: turns of the sequencer that go on where the buffer is backed end a running command, by induction
on the phases left. -/
theorem running_command_ends {turn : State → Host.Outcome State Fault Refusal}
    (sequencer : ∀ s t, turn s = .next t → sequenceCommand s = .next t ∨ sequencePhase s = .next t)
    (goesOn : ∀ s, Backed s → ∃ t, turn s = .next t) {s : State} (inv : RunInv s) (backed : Backed s)
    (busy : runState s = .busy) :
    ∃ n t, n ≤ phasesLeft s ∧ BusyTurns turn n s t ∧ RunEnded s t := by
  induction left : phasesLeft s using Nat.strong_induction_on generalizing s with
  | _ k ih =>
    obtain ⟨u, hu⟩ := goesOn s backed
    have seq := sequencer s u hu
    have invU := sequencer_runInv inv seq
    have keeps := (sequencer_frame seq).inputs
    have fewer := sequencer_phasesLeft inv (inv.running.mp busy) seq
    rw [left] at fewer
    rcases (sequencer_frame seq).status with same | ⟨ended, -⟩
    · have busyU : runState u = .busy := (congrArg statusState same).trans busy
      obtain ⟨n, t, hn, turns, ends⟩ :=
        ih (phasesLeft u) fewer invU (backed.of_keepsInputs keeps) busyU rfl
      exact ⟨n + 1, t, by omega, .next busy hu turns, ends.inv, keeps.trans ends.keeps, ends.ended⟩
    · exact ⟨1, u, by omega, .next busy hu (.none u), invU, keeps, ended⟩

theorem runPhases_of_busyTurns {n : Nat} {s t : State} (turns : BusyTurns sequencePhase n s t) :
    runPhases n s = .next t := by
  induction turns with
  | none s => rfl
  | next _ phase _ ih => rw [runPhases_of_next phase, ih]

/-- R48: while a command runs and the host waits, the steps are the sequencer's turns. -/
theorem runSteps_of_busyTurns {n : Nat} {s t : State} {rest : List Turn}
    (turns : BusyTurns sequenceCommand n s t) (ha : s.agenda = .await :: rest) :
    runSteps n s = .next t := by
  induction turns with
  | none s => rfl
  | next busy turn _ ih =>
    have first := (step_of_await (.inl busy) ha).trans ((if_pos busy).trans turn)
    rw [runSteps_succ_of_step first]
    exact ih ((sequencer_frame (.inl turn)).inputs.agenda.trans ha)

/-- R112: phase by phase. -/
theorem running_command_ends_in_phases {s : State} (inv : RunInv s) (backed : Backed s)
    (busy : runState s = .busy) :
    ∃ n t, n ≤ (s.len.toNat - 1) / 64 + 4 ∧ runPhases n s = .next t ∧ RunEnded s t := by
  obtain ⟨n, t, hn, turns, ends⟩ := running_command_ends (turn := sequencePhase) (fun _ _ h => .inr h)
    (fun _ => sequencePhase_next_of_backed) inv backed busy
  exact ⟨n, t, hn.trans (phasesLeft_le inv), runPhases_of_busyTurns turns, ends⟩

/-- R112, R48: under a host's wait. -/
theorem running_command_ends_under_wait {s : State} {rest : List Turn} (inv : RunInv s)
    (backed : Backed s) (busy : runState s = .busy) (ha : s.agenda = .await :: rest) :
    ∃ n t, n ≤ (s.len.toNat - 1) / 64 + 4 ∧ runSteps n s = .next t ∧ RunEnded s t := by
  obtain ⟨n, t, hn, turns, ends⟩ := running_command_ends (turn := sequenceCommand) (fun _ _ h => .inl h)
    (fun _ => sequenceCommand_next_of_backed) inv backed busy
  exact ⟨n, t, hn.trans (phasesLeft_le inv), runSteps_of_busyTurns turns ha, ends⟩

/-! ### A line that writes `CMD` (R48) -/

/-- Steps after steps. -/
theorem runSteps_add {m : Nat} {s t : State} (h : runSteps m s = .next t) (n : Nat) :
    runSteps (m + n) s = runSteps n t := by
  induction m generalizing s with
  | zero => cases h; rw [Nat.zero_add]
  | succ m ih =>
    cases hs : step s with
    | next u =>
      rw [runSteps_succ_of_step hs] at h
      rw [Nat.add_right_comm, runSteps_succ_of_step hs, ih h]
    | fault r => rw [runSteps, hs] at h; cases h
    | refused r => rw [runSteps, hs] at h; cases h

/-- The line that writes the word `c` to `CMD` has ended in `t`, with the turns `rest` to come. -/
structure LineEnded (c : CmdWord) (rest : List Turn) (s t : State) : Prop where
  agenda : t.agenda = rest
  held : t.held = []
  len : t.len = s.len
  ops : t.ops = s.ops
  state : runState t = .fault ∨ (runState t = .done ∧ t.cmd = c)

/-- R13, R96: the write of a word to `CMD`, when no command runs, starts its command or is ignored. -/
theorem completeAccess_write_cmd {s : State} (notBusy : runState s ≠ .busy) (c : CmdWord) :
    (runState s = .fault ∧ completeAccess s (.write .cmd (c.setWidth 64)) = s) ∨
    completeAccess s (.write .cmd (c.setWidth 64)) = startCommand s c := by
  have word : (c.setWidth 64).setWidth 32 = c := by
    rw [BitVec.setWidth_setWidth_of_le _ (by omega), BitVec.setWidth_eq]
  by_cases fault : runState s = .fault
  · exact .inl ⟨fault, writeReg_of_fault fault .cmd _⟩
  · exact .inr ((writeReg_of_ready fault notBusy .cmd _).trans (congrArg (startCommand s) word))

/-- R48: once its write has completed the line waits for its own command, if one started. -/
theorem line_ends_after_write {s : State} {rest : List Turn} (inv : RunInv s) (backed : Backed s)
    (notBusy : runState s ≠ .busy) (hh : s.held = []) (ha : s.agenda = .await :: rest) (c : CmdWord) :
    ∃ n t, n ≤ (s.len.toNat - 1) / 64 + 5 ∧
      runSteps n (completeAccess s (.write .cmd (c.setWidth 64))) = .next t ∧ LineEnded c rest s t := by
  rcases completeAccess_write_cmd notBusy c with ⟨fault, e⟩ | e
  · rw [e]
    exact ⟨1, _, by omega, runSteps_succ_of_step (step_of_await_over notBusy hh ha) 0,
      rfl, hh, rfl, rfl, .inl fault⟩
  · rw [e]
    obtain ⟨n, t, hn, run, ends⟩ := running_command_ends_under_wait (s := startCommand s c)
      (startCommand_runInv inv c) backed (runState_startCommand s c) ha
    have keeps := ends.keeps
    have heldT : t.held = [] := keeps.held.trans hh
    have waitOver := step_of_await_over ends.notBusy heldT (keeps.agenda.trans ha)
    refine ⟨n + 1, _, Nat.succ_le_succ hn, (runSteps_add run 1).trans (runSteps_succ_of_step waitOver 0),
      rfl, heldT, keeps.len, keeps.ops, ?_⟩
    exact ends.ended.symm.imp_right fun done => ⟨done, keeps.cmd⟩

/-- R48: a line that writes `CMD` while a command runs: the write is held, the running command ends, the
write completes, and the line waits for its own command. -/
theorem line_ends_of_busy {s : State} {c : CmdWord} {rest : List Turn} (inv : RunInv s)
    (backed : Backed s) (busy : runState s = .busy) (hh : s.held = [])
    (ha : s.agenda = runWordTurns c ++ rest) :
    ∃ n t, n ≤ 2 * ((s.len.toNat - 1) / 64) + 11 ∧ runSteps n s = .next t ∧ LineEnded c rest s t := by
  let write : Access := .write .cmd (c.setWidth 64)
  let waiting : State := { s with agenda := .await :: rest, held := [write] }
  have hold : step s = .next waiting := by
    rw [step_of_host (.inl busy) ha]
    refine congrArg Host.Outcome.next ((accessTurn_of_busy (s := { s with agenda := .await :: rest })
      (a := write) busy nofun).trans ?_)
    simp only [hh, List.nil_append, waiting]
  obtain ⟨n, u, hn, run, ends⟩ := running_command_ends_under_wait (s := waiting)
    (inv.with_hostSide inv.memory _ _) backed busy rfl
  have keeps := ends.keeps
  have backedU : Backed u := Backed.of_keepsInputs (s := waiting) backed keeps
  have complete := step_of_held ends.notBusy keeps.held
  obtain ⟨m, t, hm, run', line⟩ := line_ends_after_write (s := { u with held := [] })
    (ends.inv.with_hostSide ends.inv.memory _ _) backedU ends.notBusy rfl keeps.agenda c
  have len : u.len = s.len := keeps.len
  refine ⟨n + (m + 1) + 1, t, ?_, ?_, line.agenda, line.held, line.len.trans keeps.len,
    line.ops.trans keeps.ops, line.state⟩
  · simp only [waiting, len] at hn hm
    omega
  · rw [runSteps_succ_of_step hold, runSteps_add run, runSteps_succ_of_step complete]
    exact run'

/-- R48: a line that writes `CMD` while no command runs: the write completes at once. -/
theorem line_ends_of_not_busy {s : State} {c : CmdWord} {rest : List Turn} (inv : RunInv s)
    (backed : Backed s) (notBusy : runState s ≠ .busy) (hh : s.held = [])
    (ha : s.agenda = runWordTurns c ++ rest) :
    ∃ n t, n ≤ (s.len.toNat - 1) / 64 + 6 ∧ runSteps n s = .next t ∧ LineEnded c rest s t := by
  let begun : State := { s with agenda := .await :: rest }
  have complete : step s = .next (completeAccess begun (.write .cmd (c.setWidth 64))) := by
    rw [step_of_host (.inr hh) ha]
    exact congrArg Host.Outcome.next (accessTurn_of_not_busy (s := begun) notBusy _)
  obtain ⟨n, t, hn, run, line⟩ := line_ends_after_write (s := begun)
    (inv.with_hostSide inv.memory _ _) backed notBusy hh rfl c
  exact ⟨n + 1, t, Nat.succ_le_succ hn, (runSteps_succ_of_step complete n).trans run, line.agenda,
    line.held, line.len, line.ops, line.state⟩

/-- Settles O60: the running command ends phase by phase; the line's write waits for a running command or
completes at once. -/
theorem runningCommandEnds : Obligations.RunningCommandEnds := by
  refine ⟨fun s inv backed busy => ?_, fun s line c rest inv backed hh isLine ha => ?_⟩
  · obtain ⟨n, t, hn, run, ends⟩ := running_command_ends_in_phases inv backed busy
    exact ⟨n, t, hn, run, ends.ended, ends.keeps⟩
  have turns : lineTurns line = runWordTurns c := by
    rcases isLine with rfl | ⟨i, rfl, rfl⟩ <;> rfl
  rw [turns] at ha
  have ends : ∃ n t, n ≤ 2 * ((s.len.toNat - 1) / 64) + 11 ∧ runSteps n s = .next t ∧
      LineEnded c rest s t := by
    by_cases busy : runState s = .busy
    · exact line_ends_of_busy inv backed busy hh ha
    · obtain ⟨n, t, hn, run⟩ := line_ends_of_not_busy inv backed busy hh ha
      exact ⟨n, t, by omega, run⟩
  obtain ⟨n, t, hn, run, line⟩ := ends
  exact ⟨n, t, hn, run, line.agenda, line.held, line.len, line.ops, line.state⟩

end Sys2Proof.Machine
end

section
/-! O4: the words of 95_test_vectors.md 2.11. A legal word is its instruction's encoding; for the others, which
clause of R45 the decoder names is said once per clause, under the clauses before it. -/

namespace Sys2Proof.Machine

section Clauses

variable {c : CmdWord}

/-- R45 clause 1, which the decoder tests first. -/
theorem decode_of_zero_ne (set : (fieldsOf c).zero ≠ 0) : decode c = .error .zeroFieldSet :=
  if_pos set

/-- R45 clause 2, in a word that keeps clause 1. -/
theorem decode_of_reserved_op (hz : (fieldsOf c).zero = 0) (reserved : (fieldsOf c).opOk = false) :
    decode c = .error .reservedOp := by
  rcases decodeFields_cases hz with ⟨rotr, -⟩ | ⟨bswap, -⟩ | ⟨fetch, -⟩ | ⟨j, -, word, -⟩ | ⟨-, e⟩
  · rw [CmdFields.opOk, rotr] at reserved; exact absurd reserved (by decide)
  · rw [CmdFields.opOk, bswap] at reserved; exact absurd reserved (by decide)
  · rw [CmdFields.opOk, fetch] at reserved; exact absurd reserved (by decide)
  · have legal := encode_legal j
    rw [word, fieldsOf_packWord, legal_iff] at legal
    obtain ⟨-, hop, -⟩ := legal
    exact absurd (hop.symm.trans reserved) nofun
  · exact e

/-- R45 clause 3, in a word that keeps clauses 1 and 2. -/
theorem decode_of_shift_ne (hz : (fieldsOf c).zero = 0) (hop : (fieldsOf c).opOk = true)
    (unused : (fieldsOf c).op ≠ 1) (set : (fieldsOf c).sh ≠ 0) : decode c = .error .shiftFieldSet := by
  rcases decodeFields_cases hz with ⟨rotr, -⟩ | ⟨-, e⟩ | ⟨-, e⟩ | ⟨j, -, -, e⟩ | ⟨reserved, -⟩
  · exact absurd rotr unused
  · exact e.trans (if_pos set)
  · exact e.trans (if_pos set)
  · exact e.trans (if_pos set)
  · exact absurd (hop.symm.trans reserved) nofun

/-- R45 clause 4, in a word that keeps clauses 1 to 3. -/
theorem decode_of_width_ne (hz : (fieldsOf c).zero = 0) (hop : (fieldsOf c).opOk = true)
    (hsh : (fieldsOf c).sh = 0 ∨ (fieldsOf c).op = 1)
    (unused : (fieldsOf c).op ≠ 2 ∧ (fieldsOf c).op ≠ 3) (set : (fieldsOf c).wd ≠ 0) :
    decode c = .error .widthFieldSet := by
  rcases decodeFields_cases hz with ⟨-, e⟩ | ⟨bswap, -⟩ | ⟨fetch, -⟩ | ⟨j, ⟨notRotr, -⟩, -, e⟩ | ⟨reserved, -⟩
  · exact e.trans (if_pos set)
  · exact absurd bswap unused.1
  · exact absurd fetch unused.2
  · exact e.trans ((if_neg (not_not.mpr (hsh.resolve_right notRotr))).trans (if_pos set))
  · exact absurd (hop.symm.trans reserved) nofun

end Clauses

/-- Settles O4: the legal words are encodings, and each other word breaks the one clause named. -/
theorem decodesWordsOfEveryFamily : Obligations.DecodesWordsOfEveryFamily := by
  have legal {c : CmdWord} {i : Instr} (word : c = encode i) : decode c = .ok i :=
    (decodeInvertsEncode c i).mpr word
  exact ⟨legal rfl, legal rfl, legal rfl, legal rfl, legal rfl, legal rfl, legal rfl, legal rfl, legal rfl,
    decode_of_reserved_op (by decide) (by decide),
    decode_of_zero_ne (by decide),
    decode_of_shift_ne (by decide) (by decide) (by decide) (by decide),
    decode_of_width_ne (by decide) (by decide) (by decide) (by decide) (by decide)⟩

end Sys2Proof.Machine
end
